-- ==== Sys2Proof/Word.lean ====
section
/-!
DEFINITION. The two data types of the core: the unsigned 32-bit word and the byte
(spec/00_scope.md R7, R9). Bit 0 is the least significant bit; nothing in the core is signed.
-/
namespace Sys2Proof

/-- A 32-bit unsigned word (R7, R9). -/
abbrev Word := BitVec 32

/-- An 8-bit byte (R9). -/
abbrev Byte := BitVec 8

end Sys2Proof
end

