-- ==== Sys2Proof/Syntax.lean ====
section
/-!
DEFINITION. The instructions: one constructor per row of spec/opcode_table.json. The first six are the
host commands of format C (spec/30_encoding.md R52, R53), the other seven the micro-operations of
format U, `IDLE` included (R59, R60).
-/
namespace Sys2Proof

/-- A host command or a micro-operation, with its operand. -/
inductive Instr where
  /-- `CLR`, R86: begin a new invocation. -/
  | clr
  /-- `PUSH b`, R87: supply the next byte of the input. -/
  | push (b : Byte)
  /-- `START`, R88: check the length and start the compression. -/
  | start
  /-- `RDW i`, R89: read word `i` of the result, `i` in 0..7. -/
  | rdw (i : BitVec 3)
  /-- `RDB j`, R90: read byte `j` of the 32-byte form of the result, `j` in 0..31. -/
  | rdb (j : BitVec 5)
  /-- `STAT`, R91: read the status register. -/
  | stat
  /-- `IDLE`, R95: the sequencer waits. -/
  | idle
  /-- `HINIT`, R96: set the state to the initial hash values. -/
  | hinit
  /-- `WLOAD t`, R97: load block word `t`, `t` in 0..15 (R42: a 4-bit index). -/
  | wload (t : BitVec 4)
  /-- `WEXP t`, R98: compute schedule word `t`; legal for `t` in 16..63 (`WellFormed`). -/
  | wexp (t : BitVec 6)
  /-- `RINIT`, R99: copy the state into the working registers. -/
  | rinit
  /-- `ROUND t`, R100: compression round `t`, `t` in 0..63. -/
  | round (t : BitVec 6)
  /-- `ACCUM`, R101: add the working registers into the state, and finish. -/
  | accum
  deriving DecidableEq, Repr

/-- An encoded instruction: a 16-bit command word (R52) or a 9-bit micro-operation word (R59). The two
never share a path: command words cross the interface, micro-operation words stand in `SEQ` only. -/
inductive Encoded where
  | command (cw : BitVec 16)
  | micro (seq : BitVec 9)
  deriving DecidableEq, Repr

end Sys2Proof
end

