-- ==== Sys2Proof/WellFormed.lean ====
section
/-!
DEFINITION. Which terms of `Instr` are instructions. Every operand range of spec/30_encoding.md R53 and
R60 is carried by the operand's type but one: the index of `WEXP` is 16..63, "the schedule or round
index of the source's algorithm itself, not an offset" (R60; the table's constraint `t >= 16`, R66).
-/
namespace Sys2Proof

/-- The operand is in the range its row of the tables of R53 and R60 gives. -/
def Instr.wellFormed : Instr → Bool
  | .wexp t => decide (16 ≤ t.toNat)
  | .clr | .push _ | .start | .rdw _ | .rdb _ | .stat => true
  | .idle | .hinit | .wload _ | .rinit | .round _ | .accum => true

/-- `i` is an instruction of the table. -/
abbrev Instr.WellFormed (i : Instr) : Prop := i.wellFormed = true

end Sys2Proof
end

