-- ==== Sys2Proof/Decode.lean ====
section
/-!
DEFINITION. The decoder, total on every command word and every micro-operation word and rejecting by
name, and after it the encoder (spec/30_encoding.md R52 to R62, R66, R67). There is one length per
format and no mode, so no length has to be found (R62).
-/
namespace Sys2Proof

/-- Why a word is no instruction. The core's answer to every illegal command word is the same (R56,
D12); the names say which part of R55 or R60 the word breaks. -/
inductive Reject where
  /-- `op` is 0 or 7..15 (R53). -/
  | unassignedOp
  /-- `rsv` is not `0000` (R52, R55). -/
  | reservedBits
  /-- `arg` is out of the command's range (R54, R55). -/
  | operandOutOfRange
  /-- `ph` is 7 (R60). -/
  | unassignedPhase
  /-- `t` is out of the phase's range (R60, R61). -/
  | indexOutOfRange
  deriving DecidableEq, Repr

/-! ## Format C, the command word -/

/-- `op = cw[15:12]` (R52). -/
def opField (cw : BitVec 16) : BitVec 4 := cw.extractLsb' 12 4

/-- `rsv = cw[11:8]` (R52). -/
def rsvField (cw : BitVec 16) : BitVec 4 := cw.extractLsb' 8 4

/-- `arg = cw[7:0]` (R52). -/
def argField (cw : BitVec 16) : BitVec 8 := cw.extractLsb' 0 8

/-- A command without an operand: `arg` must be 0 (R54). -/
def noOperand (arg : BitVec 8) (i : Instr) : Except Reject Instr :=
  if arg = 0 then .ok i else .error .operandOutOfRange

/-- The command a word stands for, by the table of R53 and the operand ranges of R54. -/
def decodeCommand (cw : BitVec 16) : Except Reject Instr :=
  let arg := argField cw
  if rsvField cw ≠ 0 then .error .reservedBits
  else match (opField cw).toNat with
    | 1 => noOperand arg .clr
    | 2 => .ok (.push arg)
    | 3 => noOperand arg .start
    | 4 => if arg.toNat ≤ 7 then .ok (.rdw (arg.extractLsb' 0 3)) else .error .operandOutOfRange
    | 5 => if arg.toNat ≤ 31 then .ok (.rdb (arg.extractLsb' 0 5)) else .error .operandOutOfRange
    | 6 => noOperand arg .stat
    | _ => .error .unassignedOp

/-! ## Format U, the micro-operation word -/

/-- `ph = SEQ[8:6]` (R59). -/
def phField (seq : BitVec 9) : BitVec 3 := seq.extractLsb' 6 3

/-- `t = SEQ[5:0]` (R59). -/
def tField (seq : BitVec 9) : BitVec 6 := seq.extractLsb' 0 6

/-- The phase codes of R60. -/
def phIdle : BitVec 3 := 0
def phHinit : BitVec 3 := 1
def phWload : BitVec 3 := 2
def phWexp : BitVec 3 := 3
def phRinit : BitVec 3 := 4
def phRound : BitVec 3 := 5
def phAccum : BitVec 3 := 6

/-- `{ph, t}` as the nine bits of `SEQ` (R27, R59). -/
def seqOf (ph : BitVec 3) (t : BitVec 6) : BitVec 9 := ph ++ t

/-- A micro-operation without an index: `t` must be 0 (R60). -/
def noIndex (t : BitVec 6) (i : Instr) : Except Reject Instr :=
  if t = 0 then .ok i else .error .indexOutOfRange

/-- The micro-operation a value of `SEQ` stands for, by the table of R60. -/
def decodeMicro (seq : BitVec 9) : Except Reject Instr :=
  let t := tField seq
  match (phField seq).toNat with
  | 0 => noIndex t .idle
  | 1 => noIndex t .hinit
  | 2 => if t.toNat ≤ 15 then .ok (.wload (t.extractLsb' 0 4)) else .error .indexOutOfRange
  | 3 => if 16 ≤ t.toNat then .ok (.wexp t) else .error .indexOutOfRange
  | 4 => noIndex t .rinit
  | 5 => .ok (.round t)
  | 6 => noIndex t .accum
  | _ => .error .unassignedPhase

/-! ## Both formats, and the encoder -/

/-- The instruction an encoded word stands for. -/
def decode : Encoded → Except Reject Instr
  | .command cw => decodeCommand cw
  | .micro seq => decodeMicro seq

/-- The word of an instruction (R53, R60, R67). -/
def encode : Instr → Encoded
  | .clr => .command 0x1000
  | .push b => .command (0x20#8 ++ b)
  | .start => .command 0x3000
  | .rdw i => .command (0b0100000000000#13 ++ i)
  | .rdb j => .command (0b01010000000#11 ++ j)
  | .stat => .command 0x6000
  | .idle => .micro (seqOf phIdle 0)
  | .hinit => .micro (seqOf phHinit 0)
  | .wload t => .micro (seqOf phWload (0#2 ++ t))
  | .wexp t => .micro (seqOf phWexp t)
  | .rinit => .micro (seqOf phRinit 0)
  | .round t => .micro (seqOf phRound t)
  | .accum => .micro (seqOf phAccum 0)

/-! ## The opcode table, machine-readable (R66) -/

/-- One row of the opcode table: a word of the row's format belongs to it when `word and mask = value`
and its index is at least `minIndex` (the table's one constraint that a mask cannot express, R66). -/
structure TableRow where
  mnemonic : String
  command : Bool
  value : Nat
  mask : Nat
  minIndex : Nat
  deriving DecidableEq, Repr

/-- The rows of format C. -/
def commandRows : List TableRow :=
  [ ⟨"CLR", true, 0x1000, 0xFFFF, 0⟩, ⟨"PUSH", true, 0x2000, 0xFF00, 0⟩,
    ⟨"START", true, 0x3000, 0xFFFF, 0⟩, ⟨"RDW", true, 0x4000, 0xFFF8, 0⟩,
    ⟨"RDB", true, 0x5000, 0xFFE0, 0⟩, ⟨"STAT", true, 0x6000, 0xFFFF, 0⟩ ]

/-- The rows of format U. -/
def microRows : List TableRow :=
  [ ⟨"IDLE", false, 0x000, 0x1FF, 0⟩, ⟨"HINIT", false, 0x040, 0x1FF, 0⟩,
    ⟨"WLOAD", false, 0x080, 0x1F0, 0⟩, ⟨"WEXP", false, 0x0C0, 0x1C0, 16⟩,
    ⟨"RINIT", false, 0x100, 0x1FF, 0⟩, ⟨"ROUND", false, 0x140, 0x1C0, 0⟩,
    ⟨"ACCUM", false, 0x180, 0x1FF, 0⟩ ]

/-- The thirteen rows of R66. -/
def opcodeTable : List TableRow := commandRows ++ microRows

/-- The word selects the row (R66). -/
def selectsRow (w : Encoded) (r : TableRow) : Bool :=
  match w with
  | .command cw => r.command && (cw.toNat &&& r.mask == r.value)
  | .micro seq =>
    !r.command && (seq.toNat &&& r.mask == r.value) && decide (r.minIndex ≤ (tField seq).toNat)

/-- The mnemonic of the row an instruction belongs to. -/
def mnemonic : Instr → String
  | .clr => "CLR"
  | .push _ => "PUSH"
  | .start => "START"
  | .rdw _ => "RDW"
  | .rdb _ => "RDB"
  | .stat => "STAT"
  | .idle => "IDLE"
  | .hinit => "HINIT"
  | .wload _ => "WLOAD"
  | .wexp _ => "WEXP"
  | .rinit => "RINIT"
  | .round _ => "ROUND"
  | .accum => "ACCUM"

/-! ## Words as the opcode table numbers their bits -/

/-- The encoded word of a table row whose `nbits` bits are `w`. The rows of format U have 9 bits, so in
whole bytes both formats may be given as 16: a number below 512 is a micro-operation word, since no
command word below `0x1000` is legal (R55), and every larger number a command word. -/
def tableWord (nbits w : Nat) : Encoded :=
  let v := w % 2 ^ nbits
  if v < 512 then .micro (BitVec.ofNat 9 v) else .command (BitVec.ofNat 16 v)

/-- The instruction the decoder reads from a word whose bits are numbered as the opcode table numbers
them; `none` where it refuses. -/
def decodeTableWord (nbits w : Nat) : Option Instr :=
  match decode (tableWord nbits w) with
  | .ok i => some i
  | .error _ => none

end Sys2Proof
end

