-- ==== Sys2Proof/Config.lean ====
section
/-!
DEFINITION. What the spec leaves open, as constants without a body: nothing in Lean can evaluate one
of them or prove a value of it.

spec/10_state.md R30 and R31 say that `H`, `a..h` and `W` hold no value after reset, and
spec/92_eei_decisions.md D16 that a model represents that as "an arbitrary but fixed unknown, and must
not default it to 0". Each constant takes the number of the reset (so that one reset tells nothing
about the next) and the index of the element. DESIGN CHOICE, notes/assumptions/2.md.
-/
namespace Sys2Proof

/-- What `H[i]` holds after the `n`-th reset (R31: unspecified). -/
opaque Config.resetH : (n i : Nat) → Word

/-- What `reg(i)`, `i` in 0..7 for `a..h`, holds after the `n`-th reset (R31: unspecified). -/
opaque Config.resetWork : (n i : Nat) → Word

/-- What `W[t]` holds after the `n`-th reset (R31: unspecified). -/
opaque Config.resetW : (n t : Nat) → Word

end Sys2Proof
end

