-- ==== Sys2Proof/Machine/State.lean ====
section
/-!
DEFINITION. The state of one core instance (spec/10_state.md R13), the events at its interface
(spec/41_host_commands.md R84, spec/70_reset_and_hazards.md R140), the responses it gives
(spec/30_encoding.md R57, R58), and the state after reset (R31).
-/
namespace Sys2Proof.Machine

/-- The working registers `a, b, c, d, e, f, g, h` (R16). -/
structure Work where
  a : Word
  b : Word
  c : Word
  d : Word
  e : Word
  f : Word
  g : Word
  h : Word
  deriving DecidableEq, Repr

/-- The block buffer `BLK` as data (R20): (address, byte) pairs with strictly rising addresses below
64. An address that is not listed holds no value (R30). -/
abbrev Memory := List Host.Cell

/-- The canonical form of `BLK`: addresses strictly rising and in 0..63 (spec/20_memory.md R35). An
unlisted address reads as no value, so no entry can equal what an unlisted address reads as. -/
abbrev Memory.Wf (m : Memory) : Prop :=
  m.Pairwise (fun x y => x.1 < y.1) ∧ ∀ x ∈ m, x.1 < 64

/-- The response codes the core returns (R58). Codes 5 to 15 are never returned and have no name. -/
inductive RespCode where
  /-- 0, `OK`: the command was performed. -/
  | ok
  /-- 1, `E_INVLEN`: `START` with fewer than 64 bytes supplied. -/
  | eInvLen
  /-- 2, `E_BUSY`: the sequencer is running. -/
  | eBusy
  /-- 3, `E_NODATA`: `RDW` or `RDB` with `VALID = 0`. -/
  | eNoData
  /-- 4, `E_ILLEGAL`: illegal command word. -/
  | eIllegal
  deriving DecidableEq, Repr

/-- The response to one command word (R57). -/
structure Response where
  code : RespCode
  data : Word
  deriving DecidableEq, Repr

/-- What can happen next to a core instance. -/
inductive Event where
  /-- The host presents a command word (R84, R85). -/
  | command (cw : BitVec 16)
  /-- The sequencer is given a turn before the host acts again (R47). -/
  | seqTurn
  /-- Reset is asserted (R140). -/
  | reset
  deriving DecidableEq, Repr

/-- Everything one core instance holds (R13), and after it the model's own three fields. -/
structure State where
  /-- `H[0..7]`, the state register file (R14). -/
  h : Vector Word 8
  /-- `a..h`, the working registers (R16). -/
  work : Work
  /-- `W[0..63]`, the message-schedule store (R17). -/
  w : Vector Word 64
  /-- `BLK[0..63]`, the block buffer (R20). -/
  blk : Memory
  /-- `LEN`, the bytes supplied, saturating at 64 (R21). -/
  len : BitVec 7
  /-- `BUSY` (R23). -/
  busy : Bool
  /-- `VALID` (R24). -/
  valid : Bool
  /-- `ERR` (R25). -/
  err : Bool
  /-- `ECAUSE` (R25). -/
  ecause : BitVec 4
  /-- `SEQ = {ph, t}`, the sequencer register (R27, R59). -/
  seq : BitVec 9
  /-- The model's own: what the host and the interleaving do next, first event first. DESIGN CHOICE
  (notes/assumptions/1.md): every interleaving of R47 is some value of this field. -/
  inbox : List Event
  /-- The model's own: the responses given so far, newest first. DESIGN CHOICE
  (notes/assumptions/4.md). -/
  outbox : List Response
  /-- The model's own: how many resets came before the last one. It selects the free values of
  Config afresh at each reset. DESIGN CHOICE (notes/assumptions/2.md). -/
  resets : Nat
  deriving DecidableEq, Repr

/-- Why the machine stops. Neither reason is reachable from reset (spec/42_sequencer.md R105, R106). -/
inductive Fault where
  /-- The sequencer is to perform a value of `SEQ` that is no micro-operation (R61, R106). Raised by a
  sequencer turn, and by `WEXP t` with `t < 16`. Safe: the spec gives these values "a fault, never a
  meaning" (notes/assumptions/7.md). -/
  | illegalSeq
  /-- `WLOAD` reads a byte of `BLK` that holds no value (R30, R38). Safe: the model stops where the
  hardware would go on with an unknown byte (notes/assumptions/3.md). -/
  | noValue
  deriving DecidableEq, Repr

/-- Why an instruction has no meaning. No meaning of the model answers with one. -/
inductive Refusal where
  /-- The instruction has no meaning in the model yet; only an arm of `exec` may say so. Safe. No arm
  says so: every instruction of the table is modelled. -/
  | notModelled (mnemonic : String)
  deriving DecidableEq, Repr

/-- What one step or one instruction answers. -/
abbrev Result := Host.Outcome State Fault Refusal

/-- The state after the reset that `n` resets came before (R31, R140). `H`, `a..h` and `W` hold the
free values of Config, `BLK` holds no value, the control fields are 0 and `SEQ` is `{IDLE, 0}`. -/
def State.resetAt (n : Nat) : State where
  h := Vector.ofFn fun i => Config.resetH n i
  work :=
    { a := Config.resetWork n 0, b := Config.resetWork n 1, c := Config.resetWork n 2,
      d := Config.resetWork n 3, e := Config.resetWork n 4, f := Config.resetWork n 5,
      g := Config.resetWork n 6, h := Config.resetWork n 7 }
  w := Vector.ofFn fun t => Config.resetW n t
  blk := []
  len := 0
  busy := false
  valid := false
  err := false
  ecause := 0
  seq := 0
  inbox := []
  outbox := []
  resets := n

/-- The machine right after its first reset (R31): idle, nothing supplied, nothing to do. -/
def State.reset : State := State.resetAt 0

end Sys2Proof.Machine
end

