-- ==== Sys2Proof/Machine/Flags.lean ====
section
/-!
DEFINITION. The flags and the status word: `STATUS` (spec/10_state.md R22), the updates of `BUSY`,
`VALID`, `ERR` and `ECAUSE` (R23 to R25), and the response as 36 bits (spec/30_encoding.md R57, R58).
-/
namespace Sys2Proof.Machine

/-- `STATUS = {12'b0, ECAUSE, 5'b0, ERR, VALID, BUSY, 1'b0, LEN}` (R22, R91). -/
def status (s : State) : Word :=
  0#12 ++ (s.ecause ++ (0#5 ++ (BitVec.ofBool s.err ++ (BitVec.ofBool s.valid ++
    (BitVec.ofBool s.busy ++ (0#1 ++ s.len))))))

/-- The numeric code of a response (R58). -/
def RespCode.bits : RespCode → BitVec 4
  | .ok => 0
  | .eInvLen => 1
  | .eBusy => 2
  | .eNoData => 3
  | .eIllegal => 4

/-- `resp = {code, data}`, 36 bits (R57). -/
def Response.word (r : Response) : BitVec 36 := r.code.bits ++ r.data

/-- The report of the one error: `ERR <- 1`, `ECAUSE <- 1` (R125). -/
def setReport (s : State) : State := { s with err := true, ecause := 1 }

/-- The report is cleared: `ERR <- 0`, `ECAUSE <- 0` (R132). -/
def clearReport (s : State) : State := { s with err := false, ecause := 0 }

/-- Write of `VALID` (R24). -/
def setValid (v : Bool) (s : State) : State := { s with valid := v }

/-- Write of `BUSY` (R23). -/
def setBusy (v : Bool) (s : State) : State := { s with busy := v }

/-- The host has supplied fewer than 64 bytes: the condition of `InvalidLength` (R124). -/
def tooShort (s : State) : Bool := decide (s.len.toNat < 64)

end Sys2Proof.Machine
end

