-- ==== Sys2Proof/Machine/Operands.lean ====
section
/-!
DEFINITION. The operand forms: how a byte sequence becomes words and a word bytes (spec/40_datapath.md
R78, R79), the byte view of the result (spec/20_memory.md R37), the indexed reads of `H`, `a..h` and `W`,
and the read and the write of the block buffer (R38, R39).
-/
namespace Sys2Proof.Machine

/-- `be32(b0, b1, b2, b3)` (R78): the first byte is the most significant. -/
def be32 (b0 b1 b2 b3 : Byte) : Word := b0 ++ (b1 ++ (b2 ++ b3))

/-- Byte `m` of `ser32(x)` (R79): byte 0 is `x[31:24]`, byte 3 is `x[7:0]`. -/
def serByte (x : Word) (m : Nat) : Byte := x.extractLsb' (24 - 8 * m) 8

/-- `ser32(x)` (R79): four bytes, most significant first. -/
def ser32 (x : Word) : Vector Byte 4 := #v[serByte x 0, serByte x 1, serByte x 2, serByte x 3]

/-- `H[i]` (R14, R89). -/
def hAt (h : Vector Word 8) (i : BitVec 3) : Word := h[i.toNat]'i.isLt

/-- `HB(j)`, output byte `j` of the 32-byte big-endian form (R15, R37). -/
def byteView (h : Vector Word 8) (j : BitVec 5) : Byte :=
  serByte (h[j.toNat / 4]'(by have := j.isLt; omega)) (j.toNat % 4)

/-- `reg(i)` (R16): the `i`-th working register in the order `a..h`. -/
def Work.reg (r : Work) (i : BitVec 3) : Word :=
  match i.toNat with
  | 0 => r.a
  | 1 => r.b
  | 2 => r.c
  | 3 => r.d
  | 4 => r.e
  | 5 => r.f
  | 6 => r.g
  | _ => r.h

/-- The eight words of a state as working registers, lane by lane (R99, R107). -/
def workOf (h : Vector Word 8) : Work where
  a := h[0]
  b := h[1]
  c := h[2]
  d := h[3]
  e := h[4]
  f := h[5]
  g := h[6]
  h := h[7]

/-- `W[t]` (R17). -/
def wAt (w : Vector Word 64) (t : BitVec 6) : Word := w[t.toNat]'t.isLt

/-- One byte of the block buffer; `none` where nothing has been written (R30). -/
def memRead : Memory → Nat → Option Byte
  | [], _ => none
  | (b, x) :: rest, a => if b = a then some x else memRead rest a

/-- `MemRead(addr, 4)` (R38): four bytes joined, first byte most significant; defined only where every
byte read has been written. -/
def memRead4 (m : Memory) (addr : Nat) : Option Word :=
  match memRead m addr, memRead m (addr + 1), memRead m (addr + 2), memRead m (addr + 3) with
  | some b0, some b1, some b2, some b3 => some (be32 b0 b1 b2 b3)
  | _, _, _, _ => none

/-- `MemWrite(addr, 1, v)` (R39), keeping the addresses rising. -/
def memWrite : Memory → Nat → Byte → Memory
  | [], a, v => [(a, v)]
  | (b, x) :: rest, a, v =>
    if a < b then (a, v) :: (b, x) :: rest
    else if a = b then (a, v) :: rest
    else (b, x) :: memWrite rest a v

/-- The byte index of block word `t` (R35, R42): `4 * t`, always aligned and in range. -/
def wordAddr (t : BitVec 4) : Nat := 4 * t.toNat

end Sys2Proof.Machine
end

