-- ==== Sys2Proof/Machine/Ops.lean ====
section
/-!
DEFINITION. The named operations over the state: answering a command (spec/00_scope.md R10), refusing
one (spec/60_exceptions.md R127), raising the one error (R125), the common path of the commands
(spec/41_host_commands.md R85), and the writes of the registers, the schedule, the buffer and `SEQ`.
-/
namespace Sys2Proof.Machine

/-- The command ends with this response (R10, R57). -/
def respond (c : RespCode) (d : Word) (s : State) : State :=
  { s with outbox := ⟨c, d⟩ :: s.outbox }

/-- `refuse <code>` (R127): response data 0, and no state is written. -/
def refuse (c : RespCode) (s : State) : State := respond c 0 s

/-- `raise InvalidLength(LEN)` (R125): the report is set, the response carries the length, and nothing
else is written. The core's only exception; there is no handler and no saved state (R131). -/
def raiseInvalidLength (s : State) : State :=
  respond .eInvLen (s.len.setWidth 32) (setReport s)

/-- Steps 3 and 4 of the common path (R85): refuse while `BUSY = 1`, otherwise go on. Step 1 is
`takeTurn`'s, and `STAT`, which step 2 answers first, does not use it. -/
def unlessBusy (s : State) (go : State) : Result :=
  .next (if s.busy then refuse .eBusy s else go)

/-- A read of the result (R89, R90): refused with `E_NODATA` when `VALID = 0`. -/
def readResult (v : Word) (s : State) : State :=
  if s.valid then respond .ok v s else refuse .eNoData s

/-- `pc <- (ph, t)` (R10, R27). -/
def setSeq (ph : BitVec 3) (t : BitVec 6) (s : State) : State := { s with seq := seqOf ph t }

/-- Write of `LEN` (R21). -/
def setLen (n : BitVec 7) (s : State) : State := { s with len := n }

/-- `MemWrite(addr, 1, v)` on the block buffer (R39). -/
def writeBlk (addr : Nat) (v : Byte) (s : State) : State :=
  { s with blk := memWrite s.blk addr v }

/-- Write of all eight words of `H` together (R14, R43). -/
def setH (h : Vector Word 8) (s : State) : State := { s with h := h }

/-- Write of all eight working registers together (R16, R43). -/
def setWork (r : Work) (s : State) : State := { s with work := r }

/-- `W[t] <- v` (R17). -/
def writeW (t : BitVec 6) (v : Word) (s : State) : State :=
  { s with w := s.w.set t.toNat v t.isLt }

end Sys2Proof.Machine
end

