-- ==== Sys2Proof/Machine/HostCommands.lean ====
section
/-!
DEFINITION. The meanings of the six host commands (spec/41_host_commands.md R86 to R91), each on the
common path of R85. The legality of the word (step 1 of R85) was settled by the decoder.
-/
namespace Sys2Proof.Machine

/-- `CLR` (R86): `LEN`, `VALID`, `ERR`, `ECAUSE` to 0. -/
def execClr (s : State) : Result :=
  unlessBusy s (respond .ok 0 (clearReport (setValid false (setLen 0 s))))

/-- `PUSH b` (R87): the byte goes to `BLK[LEN]` and `LEN` advances while below 64; afterwards bytes are
discarded. -/
def execPush (b : Byte) (s : State) : Result :=
  unlessBusy s (respond .ok 0
    (if s.len.toNat < 64 then setLen (s.len + 1) (writeBlk s.len.toNat b s) else s))

/-- `START` (R88): the length check, and then the sequencer is set going. -/
def execStart (s : State) : Result :=
  unlessBusy s
    (if tooShort s then raiseInvalidLength s
     else respond .ok 0 (setSeq phHinit 0 (setBusy true (clearReport (setValid false s)))))

/-- `RDW i` (R89): word `i` of the result. -/
def execRdw (i : BitVec 3) (s : State) : Result :=
  unlessBusy s (readResult (hAt s.h i) s)

/-- `RDB j` (R90): byte `j` of the 32-byte big-endian form, zero-extended. -/
def execRdb (j : BitVec 5) (s : State) : Result :=
  unlessBusy s (readResult ((byteView s.h j).setWidth 32) s)

/-- `STAT` (R91): answered whatever `BUSY` is (R85 step 2). -/
def execStat (s : State) : Result := .next (respond .ok (status s) s)

end Sys2Proof.Machine
end

