-- ==== Sys2Proof/Machine/Datapath.lean ====
section
/-!
DEFINITION. The bitwise and modular-arithmetic datapath (spec/40_datapath.md R68 to R77, R80, R81). The
functions hold no state, set no flag and cannot fail (R82, R83). The source's `s0`, `s1`, `S0`, `S1` are
named `sig0`, `sig1`, `sum0`, `sum1` here, as that file allows.
-/
namespace Sys2Proof.Machine

/-- `add32` of two words (R68): the sum modulo 2^32, carry discarded. Longer sums nest it. -/
def add32 (x y : Word) : Word := x + y

/-- `rotr(x, n)` (R69): circular right rotation, defined for `1 <= n <= 31` only; another amount cannot
be written (spec/93_implementation_defined.md U1). -/
def rotr (x : Word) (n : Nat) (_range : 1 ≤ n ∧ n ≤ 31 := by decide) : Word :=
  (x >>> n) ||| (x <<< (32 - n))

/-- `shr(x, n)` (R70): logical right shift, zeros enter at the top. -/
def shr (x : Word) (n : Nat) : Word := x >>> n

/-- `s0` (R72). -/
def sig0 (x : Word) : Word := rotr x 7 ^^^ rotr x 18 ^^^ shr x 3

/-- `s1` (R73). -/
def sig1 (x : Word) : Word := rotr x 17 ^^^ rotr x 19 ^^^ shr x 10

/-- `S0` (R74). -/
def sum0 (x : Word) : Word := rotr x 2 ^^^ rotr x 13 ^^^ rotr x 22

/-- `S1` (R75). -/
def sum1 (x : Word) : Word := rotr x 6 ^^^ rotr x 11 ^^^ rotr x 25

/-- `ch` (R76). -/
def ch (x y z : Word) : Word := (x &&& y) ^^^ (~~~x &&& z)

/-- `maj` (R77). -/
def maj (x y z : Word) : Word := (x &&& y) ^^^ (x &&& z) ^^^ (y &&& z)

/-- `wnext` (R80), the schedule recurrence; the arguments are `W[t-16]`, `W[t-15]`, `W[t-7]`, `W[t-2]`. -/
def wnext (w16 w15 w7 w2 : Word) : Word :=
  add32 (add32 (add32 w16 (sig0 w15)) w7) (sig1 w2)

/-- `temp1` of a round (R81). -/
def temp1 (r : Work) (k w : Word) : Word :=
  add32 (add32 (add32 (add32 r.h (sum1 r.e)) (ch r.e r.f r.g)) k) w

/-- `temp2` of a round (R81). -/
def temp2 (r : Work) : Word := add32 (sum0 r.a) (maj r.a r.b r.c)

/-- `round(r, k, w)` (R81): all eight registers from the values before the round. -/
def compressRound (r : Work) (k w : Word) : Work where
  a := add32 (temp1 r k w) (temp2 r)
  b := r.a
  c := r.b
  d := r.c
  e := add32 r.d (temp1 r k w)
  f := r.e
  g := r.f
  h := r.g

end Sys2Proof.Machine
end

