-- ==== Sys2Proof/Machine/Rom.lean ====
section
/-!
DEFINITION. The two read-only tables of the core: the round constants `K[0..63]` (spec/10_state.md R18)
and the initial hash values `H0[0..7]` (R19). They are constants, not state: no step writes them (R13,
spec/70_reset_and_hazards.md R142).

A table is held as the spec prints it, in rows of eight words with the index running along the row. A
row is one 256-bit number whose first word is the most significant.
-/
namespace Sys2Proof.Machine

/-- Word `c`, in 0..7, of a row; word 0 is the most significant. -/
def rowWord (row : BitVec 256) (c : Nat) : Word := row.extractLsb' (32 * (7 - c)) 32

/-- Row `r` of the table of R18, which holds `K[8r]` to `K[8r + 7]`. -/
def kRow (r : BitVec 3) : BitVec 256 :=
  match r.toNat with
  | 0 => 0x428a2f98_71374491_b5c0fbcf_e9b5dba5_3956c25b_59f111f1_923f82a4_ab1c5ed5
  | 1 => 0xd807aa98_12835b01_243185be_550c7dc3_72be5d74_80deb1fe_9bdc06a7_c19bf174
  | 2 => 0xe49b69c1_efbe4786_0fc19dc6_240ca1cc_2de92c6f_4a7484aa_5cb0a9dc_76f988da
  | 3 => 0x983e5152_a831c66d_b00327c8_bf597fc7_c6e00bf3_d5a79147_06ca6351_14292967
  | 4 => 0x27b70a85_2e1b2138_4d2c6dfc_53380d13_650a7354_766a0abb_81c2c92e_92722c85
  | 5 => 0xa2bfe8a1_a81a664b_c24b8b70_c76c51a3_d192e819_d6990624_f40e3585_106aa070
  | 6 => 0x19a4c116_1e376c08_2748774c_34b0bcb5_391c0cb3_4ed8aa4a_5b9cca4f_682e6ff3
  | _ => 0x748f82ee_78a5636f_84c87814_8cc70208_90befffa_a4506ceb_bef9a3f7_c67178f2

/-- `K[t]`, indexed by the 6-bit `t` of `ROUND t`, all values legal (spec/20_memory.md R46): the row is
`t[5:3]` and the place in it `t[2:0]`. -/
def kAt (t : BitVec 6) : Word := rowWord (kRow (t.extractLsb' 3 3)) (t.extractLsb' 0 3).toNat

/-- The one row of the table of R19. -/
def h0Row : BitVec 256 :=
  0x6a09e667_bb67ae85_3c6ef372_a54ff53a_510e527f_9b05688c_1f83d9ab_5be0cd19

/-- `H0[0..7]` (R19), all eight words at once, as `HINIT` reads them (spec/20_memory.md R46). -/
def h0Rom : Vector Word 8 :=
  #v[rowWord h0Row 0, rowWord h0Row 1, rowWord h0Row 2, rowWord h0Row 3,
     rowWord h0Row 4, rowWord h0Row 5, rowWord h0Row 6, rowWord h0Row 7]

end Sys2Proof.Machine
end

