-- ==== Sys2Proof/Machine/Sequencer.lean ====
section
/-!
DEFINITION. The meanings of `IDLE` and of the six micro-operations (spec/42_sequencer.md R95 to R101),
each writing `SEQ` with its successor (R102).
-/
namespace Sys2Proof.Machine

/-- `IDLE` (R95): the sequencer has no step; it writes nothing and waits. -/
def execIdle (s : State) : Result := .next s

/-- `HINIT` (R96): `H[i] <- H0[i]` in all eight lanes. -/
def execHinit (s : State) : Result := .next (setSeq phWload 0 (setH h0Rom s))

/-- `WLOAD t` (R97): block word `t`, big-endian, into the schedule. -/
def execWload (t : BitVec 4) (s : State) : Result :=
  match memRead4 s.blk (wordAddr t) with
  | some v =>
    .next (if t.toNat < 15 then setSeq phWload (t.setWidth 6 + 1) (writeW (t.setWidth 6) v s)
           else setSeq phWexp 16 (writeW (t.setWidth 6) v s))
  | none => .fault .noValue

/-- `WEXP t` (R98): schedule word `t` from four earlier ones. With `t < 16` it is no micro-operation
(R61). -/
def execWexp (t : BitVec 6) (s : State) : Result :=
  if 16 ≤ t.toNat then
    let v := wnext (wAt s.w (t - 16)) (wAt s.w (t - 15)) (wAt s.w (t - 7)) (wAt s.w (t - 2))
    .next (if t.toNat < 63 then setSeq phWexp (t + 1) (writeW t v s)
           else setSeq phRinit 0 (writeW t v s))
  else .fault .illegalSeq

/-- `RINIT` (R99): `a..h <- H`. -/
def execRinit (s : State) : Result := .next (setSeq phRound 0 (setWork (workOf s.h) s))

/-- `ROUND t` (R100): one round with `K[t]` and `W[t]`. -/
def execRound (t : BitVec 6) (s : State) : Result :=
  let r := compressRound s.work (kAt t) (wAt s.w t)
  .next (if t.toNat < 63 then setSeq phRound (t + 1) (setWork r s)
         else setSeq phAccum 0 (setWork r s))

/-- The eight sums of `ACCUM`, lane by lane with no carry between lanes (R101, R107). -/
def accumulate (h : Vector Word 8) (r : Work) : Vector Word 8 :=
  #v[add32 h[0] r.a, add32 h[1] r.b, add32 h[2] r.c, add32 h[3] r.d,
     add32 h[4] r.e, add32 h[5] r.f, add32 h[6] r.g, add32 h[7] r.h]

/-- `ACCUM` (R101): `H[i] <- H[i] + reg(i)`, and the result is valid, all in one step (R49). -/
def execAccum (s : State) : Result :=
  .next (setSeq phIdle 0 (setBusy false (setValid true (setH (accumulate s.h s.work) s))))

end Sys2Proof.Machine
end

