-- ==== Sys2Proof/Machine/Dispatch.lean ====
section
/-!
DEFINITION. One arm per instruction: the six host commands (spec/41_host_commands.md) and the seven rows
of the sequencer (spec/42_sequencer.md).
-/
namespace Sys2Proof.Machine

def exec (i : Instr) (s : State) : Host.Outcome State Fault Refusal :=
  match i with
  | .clr => Sys2Proof.Machine.execClr s
  | .push b => Sys2Proof.Machine.execPush b s
  | .start => Sys2Proof.Machine.execStart s
  | .rdw k => Sys2Proof.Machine.execRdw k s
  | .rdb j => Sys2Proof.Machine.execRdb j s
  | .stat => Sys2Proof.Machine.execStat s
  | .idle => Sys2Proof.Machine.execIdle s
  | .hinit => Sys2Proof.Machine.execHinit s
  | .wload t => Sys2Proof.Machine.execWload t s
  | .wexp t => Sys2Proof.Machine.execWexp t s
  | .rinit => Sys2Proof.Machine.execRinit s
  | .round t => Sys2Proof.Machine.execRound t s
  | .accum => Sys2Proof.Machine.execAccum s

end Sys2Proof.Machine
end

