-- ==== Sys2Proof/Machine/Port.lean ====
section
/-!
DEFINITION. Who acts next and on what: the host's command word, the sequencer's micro-operation or the
reset (spec/41_host_commands.md R84, R85; spec/42_sequencer.md R95; spec/70_reset_and_hazards.md R140).
This is the core's fetch: a command word comes from the inbox, a micro-operation from `SEQ`; there is
no instruction memory (spec/20_memory.md R51).
-/
namespace Sys2Proof.Machine

/-- What one turn of the machine is. -/
inductive Turn where
  /-- Perform this instruction in this state. -/
  | run (i : Instr) (s : State)
  /-- The turn is over, with this state. -/
  | done (s : State)
  /-- The machine stops. -/
  | stop (f : Fault)
  deriving DecidableEq, Repr

/-- The sequencer's turn (R95): it performs the micro-operation that `SEQ` holds. An illegal value of
`SEQ` is a fault, never a meaning (R61, R106). -/
def seqStep (s : State) : Turn :=
  match decodeMicro s.seq with
  | .ok i => .run i s
  | .error _ => .stop .illegalSeq

/-- The host's turn (R85): an illegal word is refused whatever `BUSY` is (step 1, R56), a legal one is
performed. -/
def hostStep (cw : BitVec 16) (s : State) : Turn :=
  match decodeCommand cw with
  | .ok i => .run i s
  | .error _ => .done (refuse .eIllegal s)

/-- The reset event (R140, R141): the instance goes to the state of R31 whatever it was doing. What the
host has yet to do and what it has been told are the host's and stay. -/
def resetEvent (s : State) : State :=
  { State.resetAt (s.resets + 1) with inbox := s.inbox, outbox := s.outbox }

/-- The next turn: the first event of the inbox, and once the host is silent the sequencer (R47, R148). -/
def takeTurn (s : State) : Turn :=
  match s.inbox with
  | [] => seqStep s
  | .seqTurn :: rest => seqStep { s with inbox := rest }
  | .command cw :: rest => hostStep cw { s with inbox := rest }
  | .reset :: rest => .done (resetEvent { s with inbox := rest })

/-- The state with this encoded instruction standing where the next turn takes its instruction from: a
command word at the head of the inbox, a micro-operation in `SEQ` with the sequencer's turn next. -/
def placeWord (s : State) : Encoded → State
  | .command cw => { s with inbox := .command cw :: s.inbox }
  | .micro seq => { s with seq := seq, inbox := .seqTurn :: s.inbox }

end Sys2Proof.Machine
end

