-- ==== Sys2Proof/Machine/Step.lean ====
section
/-!
DEFINITION. One step of one core instance: one host command, one micro-operation or one reset, each
atomic (spec/20_memory.md R43, R47).
-/
namespace Sys2Proof.Machine

/-- Take the next turn and perform it. -/
def step (s : State) : Host.Outcome State Fault Refusal :=
  match takeTurn s with
  | .run i t => exec i t
  | .done t => .next t
  | .stop f => .fault f

/-- `s` with the table word `w` of `nbits` bits standing where `step` takes its next instruction from. -/
def State.withFetchWord (s : State) (nbits w : Nat) : State := placeWord s (tableWord nbits w)

end Sys2Proof.Machine
end

