-- ==== Sys2Proof/Machine/HostProgram.lean ====
section
/-!
DEFINITION. The host's side of the interface: issuing command words one at a time, and the
pseudo-instructions of spec/30_encoding.md R64, which are host programs over the six commands and have
no encoding of their own. `COMPRESS` followed by `RDSTATE` is the canonical invocation
(spec/41_host_commands.md R92, spec/43_invocation.md R113).
-/
namespace Sys2Proof.Machine

/-- Go on from a next state; a stop stays a stop. -/
def andThen (r : Result) (f : State → Result) : Result :=
  match r with
  | .next s => f s
  | .fault e => .fault e
  | .refused e => .refused e

/-- The host issues one command word and gets its response before anything else happens (R47). -/
def issue (cw : BitVec 16) (s : State) : Result :=
  step { s with inbox := .command cw :: s.inbox }

/-- The sequencer takes one turn between two commands (R47). -/
def giveTurn (s : State) : Result := step { s with inbox := .seqTurn :: s.inbox }

/-- The host issues these words in order (R47). -/
def issueAll : List (BitVec 16) → State → Result
  | [], s => .next s
  | cw :: rest, s => andThen (issue cw s) (issueAll rest)

/-- The sequencer takes `n` turns. -/
def giveTurns : Nat → State → Result
  | 0, s => .next s
  | n + 1, s => andThen (giveTurn s) (giveTurns n)

/-- The latest response the host got. -/
def lastResponse (s : State) : Option Response := s.outbox.head?

/-- The latest response was `OK`. -/
def lastOk (s : State) : Bool :=
  match lastResponse s with
  | some r => decide (r.code = .ok)
  | none => false

/-- The latest response, read as `STATUS`, has bit 8 (`BUSY`) set (R22, R64). -/
def lastBusy (s : State) : Bool :=
  match lastResponse s with
  | some r => r.data.getLsbD 8
  | none => false

/-- `WAIT` (R64): `STAT` until the answer has `BUSY = 0`. The sequencer steps meanwhile, as the list
says: before the `k`-th poll it takes as many turns as the `k`-th entry. The host has no say in it
(R144), and when the list is used up the host has not finished waiting. -/
def wait : List Nat → State → Result
  | [], s => .next s
  | n :: rest, s =>
    andThen (giveTurns n s) fun s1 =>
      andThen (issue 0x6000 s1) fun s2 => if lastBusy s2 then wait rest s2 else .next s2

/-- The pseudo-instructions (R64). -/
inductive Pseudo where
  | pushN (bs : List Byte)
  | load (bs : List Byte)
  | wait
  | compress (bs : List Byte)
  | rdState
  | rdDigest
  deriving DecidableEq, Repr

/-- The words of `PUSHN` (R64). -/
def pushWords (bs : List Byte) : List (BitVec 16) := bs.map fun b => 0x20#8 ++ b

/-- The words of `LOAD` (R64). -/
def loadWords (bs : List Byte) : List (BitVec 16) := 0x1000 :: pushWords bs

/-- The words of `RDSTATE` (R64). -/
def rdStateWords : List (BitVec 16) := (List.range 8).map fun i => BitVec.ofNat 16 (0x4000 + i)

/-- The words of `RDDIGEST` (R64). -/
def rdDigestWords : List (BitVec 16) := (List.range 32).map fun j => BitVec.ofNat 16 (0x5000 + j)

/-- A pseudo-instruction's expansion, performed (R64). `turns` is what the sequencer does while the host
waits; only `WAIT` and `COMPRESS` use it. -/
def runPseudo (turns : List Nat) : Pseudo → State → Result
  | .pushN bs, s => issueAll (pushWords bs) s
  | .load bs, s => issueAll (loadWords bs) s
  | .wait, s => wait turns s
  | .compress bs, s =>
    andThen (issueAll (loadWords bs) s) fun s1 =>
      andThen (issue 0x3000 s1) fun s2 => if lastOk s2 then wait turns s2 else .next s2
  | .rdState, s => issueAll rdStateWords s
  | .rdDigest, s => issueAll rdDigestWords s

end Sys2Proof.Machine
end

