-- ==== Sys2Proof/Machine/Instances.lean ====
section
/-!
DEFINITION. `NCORES` core instances side by side (spec/00_scope.md R8, spec/10_state.md R32,
spec/60_exceptions.md R136). Each has all its own state and its own host; the ROMs are constants and
shared. `n` is the open parameter of spec/92_eei_decisions.md D18, 1 if not given.
-/
namespace Sys2Proof.Machine

/-- `n` core instances. -/
abbrev System (n : Nat := 1) := Vector State n

/-- Each instance after a reset of its own; `launch k` selects the free values of instance `k`. -/
def System.reset {n : Nat} (launch : Fin n → Nat) : System n :=
  Vector.ofFn fun k => State.resetAt (launch k)

/-- Instance `k` takes one step; the others do nothing. -/
def stepInstance {n : Nat} (k : Fin n) (y : System n) : Host.Outcome (System n) Fault Refusal :=
  match step y[k] with
  | .next t => .next (y.set k t)
  | .fault e => .fault e
  | .refused e => .refused e

/-- The instances step in the order given: any interleaving of theirs is such a list (R50). -/
def runInstances {n : Nat} : List (Fin n) → System n → Host.Outcome (System n) Fault Refusal
  | [], y => .next y
  | k :: rest, y =>
    match stepInstance k y with
    | .next z => runInstances rest z
    | .fault e => .fault e
    | .refused e => .refused e

end Sys2Proof.Machine
end

