-- ==== Sys2Proof/Machine/Invocation.lean ====
section
/-!
DEFINITION. The whole invocation as a function (spec/43_invocation.md R109 to R111), in closed form and
without the sequencer. A byte sequence is a function from the byte's index to the byte; only the first
64 bytes are looked at (R117).
-/
namespace Sys2Proof.Machine

/-- The first `n` words of the schedule, newest first (R109): word `t` is block word `t` for `t < 16`,
and afterwards the recurrence over the words 16, 15, 7 and 2 places back. -/
def scheduleRev (B : Nat → Byte) : Nat → List Word
  | 0 => []
  | t + 1 =>
    let w := scheduleRev B t
    (if t < 16 then be32 (B (4 * t)) (B (4 * t + 1)) (B (4 * t + 2)) (B (4 * t + 3))
     else wnext (w.getD 15 0) (w.getD 14 0) (w.getD 6 0) (w.getD 1 0)) :: w

/-- `schedule(B)[t]` (R109), meant for `t` in 0..63. -/
def schedule (B : Nat → Byte) (t : Nat) : Word := (scheduleRev B (t + 1)).headD 0

/-- `r(t)` of R110: the working registers after the first `t` rounds from `r0`. -/
def roundsUpTo (r0 : Work) (w : Nat → Word) : Nat → Work
  | 0 => r0
  | t + 1 => compressRound (roundsUpTo r0 w t) (kAt (BitVec.ofNat 6 t)) (w t)

/-- `rounds(r0, w) = r64` (R110). -/
def rounds (r0 : Work) (w : Nat → Word) : Work := roundsUpTo r0 w 64

/-- `compress_core(Hin, B)` (R111), in full generality; the core evaluates it at `Hin = H0` only (R122). -/
def compressCore (Hin : Vector Word 8) (B : Nat → Byte) : Vector Word 8 :=
  let r := rounds (workOf Hin) (schedule B)
  #v[add32 Hin[0] (r.reg 0), add32 Hin[1] (r.reg 1), add32 Hin[2] (r.reg 2), add32 Hin[3] (r.reg 3),
     add32 Hin[4] (r.reg 4), add32 Hin[5] (r.reg 5), add32 Hin[6] (r.reg 6), add32 Hin[7] (r.reg 7)]

/-- Byte `j` of a host's byte sequence, for `j` below its length (R35). -/
def byteOf (bs : List Byte) (j : Nat) : Byte := bs.getD j 0

end Sys2Proof.Machine
end

