-- ==== Sys2Proof/Safety.lean ====
section
/-!
DEFINITION. What counts as a safe state and a safe step, and the spec's own tables as predicates for the
claims: the legal words (spec/30_encoding.md R55, R60), the successor function of `SEQ`
(spec/42_sequencer.md R102), its trace (spec/95_test_vectors.md D14) and the invariants of
spec/10_state.md R26. None of these is used by the machine itself.
-/
namespace Sys2Proof.Machine

/-- `legal(cw)`, the predicate of R55 as it is printed there. -/
def legalCommand (cw : BitVec 16) : Bool :=
  cw == 0x1000 || cw &&& 0xFF00 == 0x2000 || cw == 0x3000 || cw &&& 0xFFF8 == 0x4000 ||
    cw &&& 0xFFE0 == 0x5000 || cw == 0x6000

/-- The instruction is one of the six host commands (R53). -/
def isCommand : Instr → Bool
  | .clr | .push _ | .start | .rdw _ | .rdb _ | .stat => true
  | .idle | .hinit | .wload _ | .wexp _ | .rinit | .round _ | .accum => false

/-- The 132 legal values of `SEQ`, by the ranges of R60. -/
def legalSeq (q : BitVec 9) : Bool :=
  q == 0x000 || q == 0x040 || decide (0x080 ≤ q.toNat ∧ q.toNat ≤ 0x08F) ||
    decide (0x0D0 ≤ q.toNat ∧ q.toNat ≤ 0x0FF) || q == 0x100 ||
    decide (0x140 ≤ q.toNat ∧ q.toNat ≤ 0x17F) || q == 0x180

/-- The successor function of `SEQ`, row by row of R102. `{IDLE, 0}` has no step and stays. -/
def successor (q : BitVec 9) : BitVec 9 :=
  if q = 0x040 then 0x080
  else if 0x080 ≤ q.toNat ∧ q.toNat < 0x08F then q + 1
  else if q = 0x08F then 0x0D0
  else if 0x0D0 ≤ q.toNat ∧ q.toNat < 0x0FF then q + 1
  else if q = 0x0FF then 0x100
  else if q = 0x100 then 0x140
  else if 0x140 ≤ q.toNat ∧ q.toNat < 0x17F then q + 1
  else if q = 0x17F then 0x180
  else 0x000

/-- The value of `SEQ` before sequencer step `n + 1` of an invocation, `0x000` from step 132 on (D14). -/
def seqAfter (n : Nat) : BitVec 9 :=
  if n = 0 then 0x040
  else if n ≤ 16 then BitVec.ofNat 9 (0x080 + (n - 1))
  else if n ≤ 64 then BitVec.ofNat 9 (0x0D0 + (n - 17))
  else if n = 65 then 0x100
  else if n ≤ 129 then BitVec.ofNat 9 (0x140 + (n - 66))
  else if n = 130 then 0x180
  else 0x000

/-- What holds in every reachable state (R26 (a) to (g), R106, and the buffer's form and contents). -/
structure CoreInv (s : State) : Prop where
  /-- R26 (a). -/
  lenLe : s.len.toNat ≤ 64
  /-- R26 (b). -/
  validLen : s.valid = true → s.len = 64
  /-- R26 (c). -/
  busyFlags : s.busy = true → s.len = 64 ∧ s.valid = false ∧ s.err = false
  /-- R26 (d). -/
  validIdle : s.valid = true → s.busy = false
  /-- R26 (e). -/
  causeOfErr : s.err = true → s.ecause = 1
  /-- R26 (e). -/
  causeOfNoErr : s.err = false → s.ecause = 0
  /-- R26 (f). -/
  busySeq : s.busy = true ↔ phField s.seq ≠ phIdle
  /-- R26 (g). -/
  errNoResult : s.err = true → s.valid = false
  /-- R106. -/
  seqLegal : legalSeq s.seq = true
  /-- The buffer keeps its canonical form. -/
  blkWf : Memory.Wf s.blk
  /-- R20, R87: the bytes the host has supplied are in the buffer. -/
  blkHeld : ∀ j < s.len.toNat, (memRead s.blk j).isSome = true

/-- The buffer holds the 64 bytes `B` (R20). -/
def HoldsBlock (s : State) (B : Nat → Byte) : Prop :=
  ∀ j < 64, memRead s.blk j = some (B j)

/-- The state just after an accepted `START` on the block `B` (R88). -/
structure Started (s : State) (B : Nat → Byte) : Prop where
  busy : s.busy = true
  seq : s.seq = 0x040
  block : HoldsBlock s B

/-- A safe answer: the machine goes on. -/
def SafeAnswer (r : Result) : Prop := ∃ t, r = .next t

end Sys2Proof.Machine
end

