-- ==== Sys2Proof/Certificates/Slice0/Obligations.lean ====
section
/-!
DEFINITION. The statements for the provers, in the order of OBLIGATIONS.json. Each docstring names the
rule of spec/ it states or rests on.
-/

open Sys2Proof Sys2Proof.Machine

/-! ## Encoding -/

/-- R53, R60, R67: decoding the word of a well-formed instruction gives the instruction back, with every
operand at every value. -/
def Obligations.DecodeOfEncode : Prop :=
  ∀ i : Instr, i.WellFormed → decode (encode i) = .ok i

/-- R53 to R56, R60, R61: a word that decodes is the one word of its instruction, so no two words decode
alike and no bit of a word is ignored. -/
def Obligations.EncodeOfDecode : Prop :=
  ∀ (w : Encoded) (i : Instr), decode w = .ok i → i.WellFormed ∧ encode i = w

/-- R55: the decoder accepts a command word exactly when the printed predicate `legal(cw)` holds, and
what it accepts is one of the six commands. -/
def Obligations.CommandWordLegal : Prop :=
  ∀ cw : BitVec 16,
    ((∃ i, decodeCommand cw = .ok i) ↔ legalCommand cw = true) ∧
      ∀ i, decodeCommand cw = .ok i → isCommand i = true

/-- R60, R61: a value of `SEQ` is a micro-operation or `IDLE` exactly when it is one of the listed
ranges. -/
def Obligations.MicroWordLegal : Prop :=
  ∀ q : BitVec 9,
    ((∃ i, decodeMicro q = .ok i) ↔ legalSeq q = true) ∧
      ∀ i, decodeMicro q = .ok i → isCommand i = false

/-- R66: a word is accepted exactly when some row of the opcode table selects it, the row carries the
decoded instruction's mnemonic, and no word selects two rows. -/
def Obligations.OpcodeRowsSelect : Prop :=
  (∀ w : Encoded, (∃ i, decode w = .ok i) ↔ ∃ r ∈ opcodeTable, selectsRow w r = true) ∧
  (∀ (w : Encoded) (i : Instr), decode w = .ok i →
    ∃ r ∈ opcodeTable, selectsRow w r = true ∧ r.mnemonic = mnemonic i) ∧
  ∀ (w : Encoded), ∀ r ∈ opcodeTable, ∀ r' ∈ opcodeTable,
    selectsRow w r = true → selectsRow w r' = true → r = r'

/-- R53, R60 and spec/95_test_vectors.md D12: words of both formats written out from the encodings. -/
def Obligations.SampleWordsDecode : Prop :=
  decodeCommand 0b0001000000000000 = .ok .clr ∧
  decodeCommand 0b0010000001100001 = .ok (.push 0x61) ∧
  decodeCommand 0b0011000000000000 = .ok .start ∧
  decodeCommand 0b0100000000000111 = .ok (.rdw 7) ∧
  decodeCommand 0b0101000000011111 = .ok (.rdb 31) ∧
  decodeCommand 0b0110000000000000 = .ok .stat ∧
  decodeMicro 0b000000000 = .ok .idle ∧
  decodeMicro 0b001000000 = .ok .hinit ∧
  decodeMicro 0b010001111 = .ok (.wload 15) ∧
  decodeMicro 0b011010000 = .ok (.wexp 16) ∧
  decodeMicro 0b100000000 = .ok .rinit ∧
  decodeMicro 0b101111111 = .ok (.round 63) ∧
  decodeMicro 0b110000000 = .ok .accum

/-! ## A step -/

/-- R85, R47: when the next event is a command word that decodes to `i`, the step performs `i` in the
state without that event; nothing else happens around it. -/
def Obligations.StepPerformsCommand : Prop :=
  ∀ (s : State) (cw : BitVec 16) (rest : List Event) (i : Instr),
    s.inbox = .command cw :: rest → decodeCommand cw = .ok i →
    step s = exec i { s with inbox := rest }

/-- R95: when it is the sequencer's turn (or the host is silent) and `SEQ` holds the micro-operation
`i`, the step performs `i` in the state without that event; nothing else happens around it. -/
def Obligations.StepPerformsMicroOperation : Prop :=
  ∀ (s : State) (i : Instr), decodeMicro s.seq = .ok i →
    (s.inbox = [] → step s = exec i s) ∧
    ∀ rest : List Event, s.inbox = .seqTurn :: rest → step s = exec i { s with inbox := rest }

/-- R56: an illegal command word answers `E_ILLEGAL` with data 0 and writes no state, whatever `BUSY`
is; the all-zeros and the all-ones word are illegal; the decoder answers one of the six commands or
refuses. -/
def Obligations.IllegalCommandWordRefused : Prop :=
  (∀ (s : State) (cw : BitVec 16) (rest : List Event),
    s.inbox = .command cw :: rest → legalCommand cw = false →
    step s = .next { s with inbox := rest, outbox := ⟨.eIllegal, 0⟩ :: s.outbox }) ∧
  legalCommand 0x0000 = false ∧ legalCommand 0xFFFF = false ∧
  ∀ cw : BitVec 16,
    (∃ i, decodeCommand cw = .ok i ∧ isCommand i = true) ∨ ∃ r, decodeCommand cw = .error r

/-- R61, R106: where the sequencer is to perform one of the 380 illegal values of `SEQ`, the machine
stops by name. That it stops, and not otherwise, is the model's choice (notes/assumptions/7.md). -/
def Obligations.IllegalSequencerValueStops : Prop :=
  (∀ (s : State), (s.inbox = [] ∨ ∃ rest, s.inbox = .seqTurn :: rest) → legalSeq s.seq = false →
    step s = .fault .illegalSeq) ∧
  ∀ (t : BitVec 6) (s : State), t.toNat < 16 → exec (.wexp t) s = .fault .illegalSeq

/-- R30, R38: `WLOAD` of a word one of whose four bytes holds no value stops by name. That it stops is
the model's choice (notes/assumptions/3.md). -/
def Obligations.WloadOfUnwrittenByteStops : Prop :=
  ∀ (t : BitVec 4) (s : State) (k : Nat), k < 4 → memRead s.blk (4 * t.toNat + k) = none →
    exec (.wload t) s = .fault .noValue

/-! ## Reset -/

/-- R31: the values the spec gives for reset, `BLK` holding no value. What `H`, `a..h` and `W` hold is
not said, here as in the spec. -/
def Obligations.ResetState : Prop :=
  State.reset.len = 0 ∧ State.reset.busy = false ∧ State.reset.valid = false ∧
  State.reset.err = false ∧ State.reset.ecause = 0 ∧ State.reset.seq = 0x000 ∧
  ∀ j, memRead State.reset.blk j = none

/-- R140, R141: a reset event, whenever it occurs, leaves the control fields at 0, `SEQ` idle, `BLK`
without a value and no result; what the host has yet to do and what it was told stay (the model's
choice, notes/assumptions/6.md). -/
def Obligations.ResetEventAbandons : Prop :=
  ∀ (s : State) (rest : List Event), s.inbox = .reset :: rest →
    ∃ t, step s = .next t ∧
      t.len = 0 ∧ t.busy = false ∧ t.valid = false ∧ t.err = false ∧ t.ecause = 0 ∧
      t.seq = 0x000 ∧ (∀ j, memRead t.blk j = none) ∧ t.inbox = rest ∧ t.outbox = s.outbox

/-! ## The host commands -/

/-- R86: `CLR` while idle. -/
def Obligations.ClrBeginsInvocation : Prop :=
  ∀ s : State, s.busy = false →
    exec .clr s = .next
      { s with len := 0, valid := false, err := false, ecause := 0,
               outbox := ⟨.ok, 0⟩ :: s.outbox }

/-- R87, R39: `PUSH b` while idle with `LEN < 64` stores `b` at `BLK[LEN]` and advances `LEN`. -/
def Obligations.PushStoresByte : Prop :=
  ∀ (b : Byte) (s : State), s.busy = false → s.len.toNat < 64 →
    ∃ t, exec (.push b) s = .next t ∧
      t = { s with blk := t.blk, len := t.len, outbox := ⟨.ok, 0⟩ :: s.outbox } ∧
      t.len.toNat = s.len.toNat + 1 ∧
      memRead t.blk s.len.toNat = some b ∧
      ∀ a, a ≠ s.len.toNat → memRead t.blk a = memRead s.blk a

/-- R87: with `LEN = 64` (saturated) `PUSH b` while idle answers `OK` and changes nothing. -/
def Obligations.PushBeyondBlockDiscarded : Prop :=
  ∀ (b : Byte) (s : State), s.busy = false → 64 ≤ s.len.toNat →
    exec (.push b) s = .next { s with outbox := ⟨.ok, 0⟩ :: s.outbox }

/-- R88: `START` while idle with 64 bytes supplied is accepted. -/
def Obligations.StartAccepted : Prop :=
  ∀ s : State, s.busy = false → 64 ≤ s.len.toNat →
    exec .start s = .next
      { s with valid := false, err := false, ecause := 0, busy := true, seq := 0x040,
               outbox := ⟨.ok, 0⟩ :: s.outbox }

/-- R125 (R88, R124): `START` while idle with fewer than 64 bytes raises `InvalidLength`: the response
carries the length, `ERR` and `ECAUSE` are written, and nothing else. -/
def Obligations.StartRaisesInvalidLength : Prop :=
  ∀ s : State, s.busy = false → s.len.toNat < 64 →
    exec .start s = .next
      { s with err := true, ecause := 1,
               outbox := ⟨.eInvLen, BitVec.ofNat 32 s.len.toNat⟩ :: s.outbox }

/-- R89: `RDW i` with a valid result answers `H[i]` and writes no state. -/
def Obligations.RdwReadsWord : Prop :=
  ∀ (i : BitVec 3) (s : State), s.busy = false → s.valid = true →
    exec (.rdw i) s = .next { s with outbox := ⟨.ok, s.h[i.toNat]'i.isLt⟩ :: s.outbox }

/-- R90, R37: `RDB j` with a valid result answers byte `j` of the big-endian form, bits
`31 - 8*(j mod 4)` to `24 - 8*(j mod 4)` of `H[j div 4]`, zero-extended, and writes no state. -/
def Obligations.RdbReadsByte : Prop :=
  ∀ (j : BitVec 5) (s : State), s.busy = false → s.valid = true →
    ∃ v : Word, exec (.rdb j) s = .next { s with outbox := ⟨.ok, v⟩ :: s.outbox } ∧
      v.extractLsb' 0 8 = (s.h.toList.getD (j.toNat / 4) 0).extractLsb' (24 - 8 * (j.toNat % 4)) 8 ∧
      v.extractLsb' 8 24 = 0

/-- R91, R22: `STAT` answers the status word in every state, busy or not, and writes no state. -/
def Obligations.StatReadsStatus : Prop :=
  ∀ s : State, ∃ v : Word, exec .stat s = .next { s with outbox := ⟨.ok, v⟩ :: s.outbox } ∧
    v.extractLsb' 0 7 = s.len ∧ v.getLsbD 7 = false ∧ v.getLsbD 8 = s.busy ∧
    v.getLsbD 9 = s.valid ∧ v.getLsbD 10 = s.err ∧ v.extractLsb' 11 5 = 0 ∧
    v.extractLsb' 16 4 = s.ecause ∧ v.extractLsb' 20 12 = 0

/-- R85, R48: while `BUSY = 1` every command but `STAT` is refused with `E_BUSY` and changes nothing. -/
def Obligations.BusyRefusesCommands : Prop :=
  ∀ (i : Instr) (s : State), isCommand i = true → i ≠ .stat → s.busy = true →
    exec i s = .next { s with outbox := ⟨.eBusy, 0⟩ :: s.outbox }

/-- R89, R90, R127: without a valid result `RDW` and `RDB` are refused with `E_NODATA` and change
nothing. -/
def Obligations.NoDataWithoutResult : Prop :=
  ∀ s : State, s.busy = false → s.valid = false →
    (∀ i, exec (.rdw i) s = .next { s with outbox := ⟨.eNoData, 0⟩ :: s.outbox }) ∧
    ∀ j, exec (.rdb j) s = .next { s with outbox := ⟨.eNoData, 0⟩ :: s.outbox }

/-- R57: every command word, legal or not, in every state, gets exactly one response, whose 36 bits are
the code in `[35:32]` and the data in `[31:0]`. The second clause, that the sequencer gives no response
and that a reset leaves the responses already given alone, is not R57's: it is the model's choice
(notes/assumptions/4.md, notes/assumptions/6.md). -/
def Obligations.OneResponsePerCommand : Prop :=
  (∀ (s : State) (cw : BitVec 16) (rest : List Event), s.inbox = .command cw :: rest →
    ∃ t r, step s = .next t ∧ t.inbox = rest ∧ t.outbox = r :: s.outbox ∧
      r.word.extractLsb' 32 4 = r.code.bits ∧ r.word.extractLsb' 0 32 = r.data) ∧
  ∀ (s t : State), (∀ cw rest, s.inbox ≠ .command cw :: rest) → step s = .next t →
    t.outbox = s.outbox

/-- R130 (R85): the outcome of a command word is chosen in the fixed order: `E_ILLEGAL`, then (but for
`STAT`) `E_BUSY`, then `E_INVLEN` for `START` and `E_NODATA` for `RDW` and `RDB`, and otherwise `OK`. -/
def Obligations.OutcomePriority : Prop :=
  ∀ (s : State) (cw : BitVec 16) (rest : List Event), s.inbox = .command cw :: rest →
    ∃ t r, step s = .next t ∧ t.outbox = r :: s.outbox ∧
      r.code =
        if legalCommand cw = false then .eIllegal
        else if cw = 0x6000 then .ok
        else if s.busy = true then .eBusy
        else if cw = 0x3000 then (if s.len.toNat < 64 then .eInvLen else .ok)
        else if opField cw = 4 ∨ opField cw = 5 then (if s.valid = true then .ok else .eNoData)
        else .ok

/-- R127: a command that is answered with one of the three refusals has response data 0 and writes no
state whatever. -/
def Obligations.RefusalsWriteNothing : Prop :=
  ∀ (s t : State) (cw : BitVec 16) (rest : List Event) (r : Response),
    s.inbox = .command cw :: rest → step s = .next t → t.outbox = r :: s.outbox →
    (r.code = .eBusy ∨ r.code = .eNoData ∨ r.code = .eIllegal) →
    r.data = 0 ∧ t = { s with inbox := rest, outbox := r :: s.outbox }

/-! ## The micro-operations -/

/-- R95: `IDLE` writes nothing. -/
def Obligations.IdleDoesNothing : Prop := ∀ s : State, exec .idle s = .next s

/-- R96 (R19): `HINIT`, the word `0x040`, writes the eight initial hash values and moves to
`{WLOAD, 0}`; nothing else. -/
def Obligations.HinitSetsInitialValues : Prop :=
  decodeMicro 0x040 = .ok .hinit ∧
  ∀ s : State, exec .hinit s = .next
    { s with h := #v[0x6a09e667, 0xbb67ae85, 0x3c6ef372, 0xa54ff53a,
                     0x510e527f, 0x9b05688c, 0x1f83d9ab, 0x5be0cd19],
             seq := 0x080 }

/-- R97 (R36): `WLOAD t`, the word `0x080 + t`, with its four bytes held writes `W[t]`, first byte in the top eight bits, and
moves to the next load or to `{WEXP, 16}`; nothing else. -/
def Obligations.WloadLoadsWord : Prop :=
  (∀ t : BitVec 4, decodeMicro (BitVec.ofNat 9 (0x080 + t.toNat)) = .ok (.wload t)) ∧
  ∀ (t : BitVec 4) (s : State) (b0 b1 b2 b3 : Byte),
    memRead s.blk (4 * t.toNat) = some b0 → memRead s.blk (4 * t.toNat + 1) = some b1 →
    memRead s.blk (4 * t.toNat + 2) = some b2 → memRead s.blk (4 * t.toNat + 3) = some b3 →
    ∃ u, exec (.wload t) s = .next u ∧ u = { s with w := u.w, seq := u.seq } ∧
      (wAt u.w (t.setWidth 6)).toNat =
        b0.toNat * 2 ^ 24 + b1.toNat * 2 ^ 16 + b2.toNat * 2 ^ 8 + b3.toNat ∧
      (∀ k : BitVec 6, k.toNat ≠ t.toNat → wAt u.w k = wAt s.w k) ∧
      u.seq.toNat = if t.toNat < 15 then 0x080 + t.toNat + 1 else 0x0D0

/-- R98: `WEXP t`, the word `0x0C0 + t`, with `t` in 16..63 writes `W[t]` from four earlier words and moves to the next word or
to `{RINIT, 0}`; nothing else. -/
def Obligations.WexpExtendsSchedule : Prop :=
  (∀ t : BitVec 6, 16 ≤ t.toNat → decodeMicro (BitVec.ofNat 9 (0x0C0 + t.toNat)) = .ok (.wexp t)) ∧
  ∀ (t : BitVec 6) (s : State), 16 ≤ t.toNat →
    ∃ u, exec (.wexp t) s = .next u ∧ u = { s with w := u.w, seq := u.seq } ∧
      wAt u.w t =
        wAt s.w (BitVec.ofNat 6 (t.toNat - 16)) + sig0 (wAt s.w (BitVec.ofNat 6 (t.toNat - 15))) +
          wAt s.w (BitVec.ofNat 6 (t.toNat - 7)) + sig1 (wAt s.w (BitVec.ofNat 6 (t.toNat - 2))) ∧
      (∀ k : BitVec 6, k ≠ t → wAt u.w k = wAt s.w k) ∧
      u.seq.toNat = if t.toNat < 63 then 0x0C0 + t.toNat + 1 else 0x100

/-- R99: `RINIT`, the word `0x100`, copies `H` into `a..h` lane by lane and moves to `{ROUND, 0}`;
nothing else. -/
def Obligations.RinitCopiesState : Prop :=
  decodeMicro 0x100 = .ok .rinit ∧
  ∀ s : State, exec .rinit s = .next
    { s with work := ⟨s.h[0], s.h[1], s.h[2], s.h[3], s.h[4], s.h[5], s.h[6], s.h[7]⟩,
             seq := 0x140 }

/-- R100 (R81): `ROUND t`, the word `0x140 + t`, writes all eight working registers from the values before the round, with
`K[t]` and `W[t]`, and moves to the next round or to `{ACCUM, 0}`; nothing else. -/
def Obligations.RoundCompresses : Prop :=
  (∀ t : BitVec 6, decodeMicro (BitVec.ofNat 9 (0x140 + t.toNat)) = .ok (.round t)) ∧
  ∀ (t : BitVec 6) (s : State),
    let r := s.work
    let s1 := rotr r.e 6 ^^^ rotr r.e 11 ^^^ rotr r.e 25
    let chv := (r.e &&& r.f) ^^^ (~~~r.e &&& r.g)
    let t1 := r.h + s1 + chv + kAt t + wAt s.w t
    let s0 := rotr r.a 2 ^^^ rotr r.a 13 ^^^ rotr r.a 22
    let majv := (r.a &&& r.b) ^^^ (r.a &&& r.c) ^^^ (r.b &&& r.c)
    ∃ u, exec (.round t) s = .next u ∧
      u = { s with work := ⟨t1 + (s0 + majv), r.a, r.b, r.c, r.d + t1, r.e, r.f, r.g⟩,
                   seq := u.seq } ∧
      u.seq.toNat = if t.toNat < 63 then 0x140 + t.toNat + 1 else 0x180

/-- R101: `ACCUM`, the word `0x180`, adds each working register into its word of `H` modulo 2^32, sets
`VALID`, clears `BUSY` and idles the sequencer, all in one step; nothing else. -/
def Obligations.AccumFinishes : Prop :=
  decodeMicro 0x180 = .ok .accum ∧
  ∀ s : State, exec .accum s = .next
    { s with h := #v[s.h[0] + s.work.a, s.h[1] + s.work.b, s.h[2] + s.work.c, s.h[3] + s.work.d,
                     s.h[4] + s.work.e, s.h[5] + s.work.f, s.h[6] + s.work.g, s.h[7] + s.work.h],
             valid := true, busy := false, seq := 0x000 }

/-! ## Frames -/

/-- R29, R94, R93: what no host command writes, and which commands write which control fields; `CLR`,
`START`, `RDW`, `RDB` and `STAT` leave every byte of `BLK` alone. -/
def Obligations.HostCommandFrame : Prop :=
  ∀ (i : Instr) (s t : State), isCommand i = true → exec i s = .next t →
    (t.h = s.h ∧ t.work = s.work ∧ t.w = s.w ∧ t.inbox = s.inbox ∧ t.resets = s.resets) ∧
    ((∀ b, i ≠ .push b) → ∀ a, memRead t.blk a = memRead s.blk a) ∧
    (i ≠ .start → t.seq = s.seq ∧ t.busy = s.busy) ∧
    (i ≠ .clr → i ≠ .start → t.valid = s.valid ∧ t.err = s.err ∧ t.ecause = s.ecause) ∧
    (i ≠ .clr → (∀ b, i ≠ .push b) → t.len = s.len)

/-- R44, R89 to R91: `RDW`, `RDB` and `STAT` write no state at all; only the response is added. -/
def Obligations.ReadCommandFrame : Prop :=
  ∀ (i : Instr) (s t : State), i = .stat ∨ (∃ k, i = .rdw k) ∨ (∃ j, i = .rdb j) →
    exec i s = .next t → ∃ r, t = { s with outbox := r :: s.outbox }

/-- R87, R39: `PUSH` stores at `BLK[LEN]` and nowhere else, and stores nothing when `LEN` is saturated or
the core is busy. -/
def Obligations.PushFrame : Prop :=
  ∀ (b : Byte) (s t : State), exec (.push b) s = .next t →
    ∀ a, a ≠ s.len.toNat ∨ 64 ≤ s.len.toNat ∨ s.busy = true →
      memRead t.blk a = memRead s.blk a

/-- R29: what the micro-operations leave unchanged: `BLK`, `LEN`, the error report and the host's side
always, and of `H`, `a..h`, `W`, `VALID` and `BUSY` whatever the table of R29 gives the
micro-operation no `w` for; the schedule words other than its own for `WLOAD` and `WEXP`. -/
def Obligations.MicroOperationFrame : Prop :=
  ∀ (i : Instr) (s t : State), isCommand i = false → exec i s = .next t →
    ((∀ a, memRead t.blk a = memRead s.blk a) ∧ t.len = s.len ∧ t.err = s.err ∧
      t.ecause = s.ecause ∧ t.inbox = s.inbox ∧ t.outbox = s.outbox ∧ t.resets = s.resets) ∧
    (i ≠ .hinit → i ≠ .accum → t.h = s.h) ∧
    (i ≠ .rinit → (∀ k, i ≠ .round k) → t.work = s.work) ∧
    ((∀ k, i ≠ .wload k) → (∀ k, i ≠ .wexp k) → t.w = s.w) ∧
    (∀ k, i = .wload k → ∀ j : BitVec 6, j.toNat ≠ k.toNat → wAt t.w j = wAt s.w j) ∧
    (∀ k, i = .wexp k → ∀ j : BitVec 6, j ≠ k → wAt t.w j = wAt s.w j) ∧
    (i ≠ .accum → t.valid = s.valid ∧ t.busy = s.busy)

/-! ## The datapath -/

/-- R68: addition modulo 2^32, commutative and associative, so that order and grouping of a sum do not
matter. -/
def Obligations.AddWraps : Prop :=
  (∀ x y : Word, (add32 x y).toNat = (x.toNat + y.toNat) % 2 ^ 32) ∧
  (∀ x y : Word, add32 x y = add32 y x) ∧
  ∀ x y z : Word, add32 (add32 x y) z = add32 x (add32 y z)

/-- R69: bit `k` of `rotr(x, n)` is bit `(k + n) mod 32` of `x`, for every amount 1..31. -/
def Obligations.RotrPermutesBits : Prop :=
  ∀ (x : Word) (n : Nat) (hn : 1 ≤ n ∧ n ≤ 31) (k : Nat), k < 32 →
    (rotr x n hn).getLsbD k = x.getLsbD ((k + n) % 32)

/-- R72 to R75, with R70: the four SHA-256 functions bit by bit, the shifted term giving 0 above the
word's top. -/
def Obligations.SigmaBits : Prop :=
  ∀ (x : Word) (k : Nat), k < 32 →
    (sig0 x).getLsbD k = ((x.getLsbD ((k + 7) % 32) ^^ x.getLsbD ((k + 18) % 32)) ^^
      (decide (k + 3 < 32) && x.getLsbD (k + 3))) ∧
    (sig1 x).getLsbD k = ((x.getLsbD ((k + 17) % 32) ^^ x.getLsbD ((k + 19) % 32)) ^^
      (decide (k + 10 < 32) && x.getLsbD (k + 10))) ∧
    (sum0 x).getLsbD k = ((x.getLsbD ((k + 2) % 32) ^^ x.getLsbD ((k + 13) % 32)) ^^
      x.getLsbD ((k + 22) % 32)) ∧
    (sum1 x).getLsbD k = ((x.getLsbD ((k + 6) % 32) ^^ x.getLsbD ((k + 11) % 32)) ^^
      x.getLsbD ((k + 25) % 32))

/-- R76, R77: `ch` selects bit by bit, `maj` takes the majority bit by bit and is symmetric. -/
def Obligations.ChooseAndMajority : Prop :=
  (∀ (x y z : Word) (k : Nat), k < 32 →
    (ch x y z).getLsbD k = (if x.getLsbD k = true then y.getLsbD k else z.getLsbD k)) ∧
  (∀ (x y z : Word) (k : Nat), k < 32 →
    ((maj x y z).getLsbD k = true ↔
      2 ≤ (x.getLsbD k).toNat + (y.getLsbD k).toNat + (z.getLsbD k).toNat)) ∧
  ∀ x y z : Word, maj x y z = maj y x z ∧ maj x y z = maj x z y

/-- R78, R79: `be32` and `ser32` are inverse to each other, and the first byte carries weight 2^24. -/
def Obligations.BytesAndWordsInverse : Prop :=
  (∀ b0 b1 b2 b3 : Byte,
    (be32 b0 b1 b2 b3).toNat = b0.toNat * 2 ^ 24 + b1.toNat * 2 ^ 16 + b2.toNat * 2 ^ 8 + b3.toNat) ∧
  (∀ x : Word, be32 (ser32 x)[0] (ser32 x)[1] (ser32 x)[2] (ser32 x)[3] = x) ∧
  ∀ b0 b1 b2 b3 : Byte, ser32 (be32 b0 b1 b2 b3) = #v[b0, b1, b2, b3]

/-- R109: the schedule: block words big-endian for `t` in 0..15, the recurrence for `t` in 16..63. -/
def Obligations.ScheduleRecurrence : Prop :=
  ∀ (B : Nat → Byte) (t : Nat),
    (t < 16 →
      schedule B t = be32 (B (4 * t)) (B (4 * t + 1)) (B (4 * t + 2)) (B (4 * t + 3))) ∧
    (16 ≤ t → t < 64 →
      schedule B t = wnext (schedule B (t - 16)) (schedule B (t - 15)) (schedule B (t - 7))
        (schedule B (t - 2)))

/-- R117: only the first 64 bytes enter the compression function. -/
def Obligations.OnlyFirstSixtyFourBytesMatter : Prop :=
  ∀ (Hin : Vector Word 8) (B B' : Nat → Byte), (∀ j < 64, B j = B' j) →
    compressCore Hin B = compressCore Hin B'

/-- R121 (R15, R37): the four bytes `RDB 4i .. 4i+3` are `ser32` of the word `RDW i`. -/
def Obligations.WordAndByteViewsAgree : Prop :=
  ∀ (s : State) (i : BitVec 3) (m : Nat) (hm : m < 4), s.busy = false → s.valid = true →
    ∃ (v : Word) (c : Byte),
      exec (.rdw i) s = .next { s with outbox := ⟨.ok, v⟩ :: s.outbox } ∧
      exec (.rdb (BitVec.ofNat 5 (4 * i.toNat + m))) s =
        .next { s with outbox := ⟨.ok, c.setWidth 32⟩ :: s.outbox } ∧
      c = (ser32 v)[m]

/-! ## The sequencer and the whole invocation -/

/-- R102: a sequencer step takes `SEQ` to its successor and in `{IDLE, 0}` writes nothing; a host
command leaves `SEQ` alone, but for an accepted `START`, which takes it to `{HINIT, 0}`. -/
def Obligations.SequencerTakesSuccessor : Prop :=
  (∀ s : State, CoreInv s → (s.inbox = [] ∨ ∃ rest, s.inbox = .seqTurn :: rest) →
    ∃ t, step s = .next t ∧ t.seq = successor s.seq ∧
      (s.seq = 0x000 → t = { s with inbox := s.inbox.tail })) ∧
  ∀ (s t : State) (cw : BitVec 16) (rest : List Event),
    s.inbox = .command cw :: rest → step s = .next t →
    t.seq = if cw = 0x3000 ∧ s.busy = false ∧ 64 ≤ s.len.toNat then 0x040 else s.seq

/-- R104: after an accepted `START`, with the host silent, the sequencer takes exactly 131 steps through
the listed values of `SEQ`, `BUSY` set and `VALID` clear until the last, and then is idle with a result;
the block's contents are not mentioned. -/
def Obligations.InvocationTakes131Steps : Prop :=
  ∀ s : State, CoreInv s → s.seq = 0x040 → s.inbox = [] →
    (∀ n ≤ 131, ∃ t, Host.Core.run core n s = .next t ∧ t.seq = seqAfter n) ∧
    (∀ n < 131, ∃ t, Host.Core.run core n s = .next t ∧ t.busy = true ∧ t.valid = false) ∧
    ∃ t, Host.Core.run core 131 s = .next t ∧ t.seq = 0x000 ∧ t.busy = false ∧ t.valid = true

/-- R112: what the sequencer computes, step by step and at the end, from an accepted `START` on the block
`B` with the host silent: `H = compress_core(H0, B)`, whatever `H`, `a..h` and `W` held before. -/
def Obligations.SequencerComputesCompressCore : Prop :=
  ∀ (s : State) (B : Nat → Byte), Started s B → s.inbox = [] →
    ∀ n ≤ 131, ∃ t, Host.Core.run core n s = .next t ∧ t.blk = s.blk ∧ t.len = s.len ∧
      (1 ≤ n → n ≤ 130 → t.h = h0Rom) ∧
      (17 ≤ n → ∀ k < 16, wAt t.w (BitVec.ofNat 6 k) = schedule B k) ∧
      (65 ≤ n → ∀ k < 64, wAt t.w (BitVec.ofNat 6 k) = schedule B k) ∧
      (n = 66 → t.work = workOf h0Rom) ∧
      (∀ k < 64, n = 67 + k → t.work = roundsUpTo (workOf h0Rom) (schedule B) (k + 1)) ∧
      (n = 131 → t.h = compressCore h0Rom B ∧ t.valid = true ∧ t.busy = false ∧ t.seq = 0x000)

/-- R48, R112: whatever commands the host sends in between, the 131st sequencer turn leaves the same
result, the same block and the same length. -/
def Obligations.HostCannotDisturbInvocation : Prop :=
  ∀ (s : State) (B : Nat → Byte) (before rest : List Event), Started s B →
    s.inbox = before ++ .seqTurn :: rest → .reset ∉ before → before.count .seqTurn = 130 →
    ∃ t, Host.Core.run core (before.length + 1) s = .next t ∧ t.inbox = rest ∧
      t.h = compressCore h0Rom B ∧ t.valid = true ∧ t.busy = false ∧
      t.blk = s.blk ∧ t.len = s.len

/-! ## Invariants -/

/-- R26, R31: the invariants hold after reset. -/
def Obligations.ResetMeetsInvariants : Prop := CoreInv State.reset

/-- R26, R106: every step, a command, a micro-operation or a reset, keeps the invariants. -/
def Obligations.StepKeepsInvariants : Prop :=
  ∀ s t : State, CoreInv s → step s = .next t → CoreInv t

/-- R35, R39: every step keeps the buffer's canonical form, in every state that has it. -/
def Obligations.StepKeepsBufferForm : Prop :=
  ∀ s t : State, Memory.Wf s.blk → step s = .next t → Memory.Wf t.blk

/-- R105, R128: from a state that meets the invariants no step stops: no byte is read before it is
written and no illegal value of `SEQ` is performed. -/
def Obligations.NothingStopsTheMachine : Prop :=
  ∀ s : State, CoreInv s → SafeAnswer (step s)

/-- R91 and spec/95_test_vectors.md D13: the only shapes `STATUS` takes. -/
def Obligations.StatusShapes : Prop :=
  ∀ s : State, CoreInv s →
    (∃ n ≤ 64, status s = BitVec.ofNat 32 n) ∨ status s = 0x140 ∨ status s = 0x240 ∨
      ∃ n ≤ 64, status s = BitVec.ofNat 32 (0x10400 + n)

/-! ## What the host can and cannot learn -/

/-- R114, R94: while an invocation runs, the answer to a command word is the same however far the
sequencer has got and whatever it works on, the status being `0x140`, and the command changes nothing. -/
def Obligations.BusyAnswersHideProgress : Prop :=
  ∀ (s1 s2 : State) (cw : BitVec 16) (rest1 rest2 : List Event), CoreInv s1 → CoreInv s2 →
    s1.busy = true → s2.busy = true →
    s1.inbox = .command cw :: rest1 → s2.inbox = .command cw :: rest2 →
    ∃ r : Response,
      step s1 = .next { s1 with inbox := rest1, outbox := r :: s1.outbox } ∧
      step s2 = .next { s2 with inbox := rest2, outbox := r :: s2.outbox } ∧
      (cw = 0x6000 → r = ⟨.ok, 0x140⟩)

/-- R33, R115: after a `CLR` the responses depend on what the host does from then on and not on anything
the core held before, whatever the events are. -/
def Obligations.NoHistoryDependence : Prop :=
  ∀ (s1 s2 : State) (events : List Event), CoreInv s1 → CoreInv s2 → s1.busy = false → s2.busy = false →
    s1.inbox = .command 0x1000 :: events → s2.inbox = .command 0x1000 :: events →
    ∃ t1 t2 responses,
      Host.Core.run core (events.length + 1) s1 = .next t1 ∧
      Host.Core.run core (events.length + 1) s2 = .next t2 ∧
      t1.outbox = responses ++ s1.outbox ∧ t2.outbox = responses ++ s2.outbox

/-- R148: progress. Once the host has nothing left to do, at most 131 more steps leave the core idle. -/
def Obligations.InvocationCannotHang : Prop :=
  ∀ s : State, CoreInv s →
    ∃ t, Host.Core.run core (s.inbox.length + 131) s = .next t ∧
      t.inbox = [] ∧ t.busy = false ∧ t.seq = 0x000

/-- R116, R113: with fewer than 64 bytes the canonical invocation ends in `E_INVLEN` with the length, and
no word or byte can be read. -/
def Obligations.ShortInputFails : Prop :=
  ∀ (s : State) (bs : List Byte) (turns : List Nat), CoreInv s → s.busy = false → bs.length < 64 →
    ∃ t, runPseudo turns (.compress bs) s = .next t ∧
      lastResponse t = some ⟨.eInvLen, BitVec.ofNat 32 bs.length⟩ ∧ t.err = true ∧ t.busy = false ∧
      (∀ i, exec (.rdw i) t = .next { t with outbox := ⟨.eNoData, 0⟩ :: t.outbox }) ∧
      ∀ j, exec (.rdb j) t = .next { t with outbox := ⟨.eNoData, 0⟩ :: t.outbox }

/-- R113, R117: with 64 or more bytes the canonical invocation, whenever the sequencer gets its 131 turns
while the host polls, gives `compress_core(H0, B[0..63])` through `RDW 0..7` and its big-endian bytes
through `RDB 0..31`. -/
def Obligations.LongInputCompresses : Prop :=
  ∀ (s : State) (bs : List Byte) (turns : List Nat), CoreInv s → s.busy = false → 64 ≤ bs.length →
    131 ≤ turns.sum →
    let S := compressCore h0Rom (byteOf bs)
    ∃ t u v, runPseudo turns (.compress bs) s = .next t ∧ t.valid = true ∧ t.busy = false ∧
      runPseudo [] .rdState t = .next u ∧
      u.outbox = ((List.range 8).map fun i => (⟨.ok, S.toList.getD i 0⟩ : Response)).reverse ++
        t.outbox ∧
      runPseudo [] .rdDigest t = .next v ∧
      v.outbox = ((List.range 32).map fun j =>
        (⟨.ok, ((ser32 (S.toList.getD (j / 4) 0)).toList.getD (j % 4) 0).setWidth 32⟩ :
          Response)).reverse ++ t.outbox

/-! ## Several instances -/

/-- R32, R50, R136: a step of one instance is that instance's own step and touches no other, and the
steps of two instances commute. -/
def Obligations.InstancesAreIndependent : Prop :=
  ∀ (n : Nat) (j k : Fin n) (y : System n), j ≠ k →
    (∀ z : System n, stepInstance k y = .next z → step y[k] = .next z[k] ∧ z[j] = y[j]) ∧
    ∀ y1 y2 : System n, stepInstance j y = .next y1 → stepInstance k y1 = .next y2 →
      ∃ y1', stepInstance k y = .next y1' ∧ stepInstance j y1' = .next y2
end

