-- ==== Sys2Proof/Laws/Memory.lean ====
section
/-!
SUPPORT. The laws of the block buffer: a read after a write, and that a write keeps the canonical form
(spec/20_memory.md R38 to R40).
-/
namespace Sys2Proof.Machine

@[simp] theorem memRead_nil (a : Nat) : memRead [] a = none := rfl

/-- A byte read sees the byte written there (R40). -/
@[simp] theorem memRead_memWrite_same (m : Memory) (a : Nat) (v : Byte) :
    memRead (memWrite m a v) a = some v := by
  induction m with
  | nil => simp [memWrite, memRead]
  | cons c rest ih =>
    obtain ⟨b, x⟩ := c
    simp only [memWrite]
    split_ifs with h1 h2
    · simp [memRead]
    · simp [memRead]
    · simp [memRead, Ne.symm h2, ih]

/-- A write leaves every other byte alone. -/
theorem memRead_memWrite_other (m : Memory) {a a' : Nat} (v : Byte) (hne : a' ≠ a) :
    memRead (memWrite m a v) a' = memRead m a' := by
  induction m with
  | nil => simp [memWrite, memRead, Ne.symm hne]
  | cons c rest ih =>
    obtain ⟨b, x⟩ := c
    simp only [memWrite]
    split_ifs with h1 h2
    · simp [memRead, Ne.symm hne]
    · subst h2; simp [memRead, Ne.symm hne]
    · simp [memRead, ih]

/-- The entries after a write are the old ones and the one written. -/
theorem mem_memWrite {m : Memory} {a : Nat} {v : Byte} {c : Host.Cell} (h : c ∈ memWrite m a v) :
    c = (a, v) ∨ c ∈ m := by
  induction m with
  | nil => simpa [memWrite] using h
  | cons d rest ih =>
    obtain ⟨b, x⟩ := d
    simp only [memWrite] at h
    split_ifs at h with h1 h2
    · simpa using h
    · rcases List.mem_cons.1 h with h | h
      · exact .inl h
      · exact .inr (List.mem_cons_of_mem _ h)
    · rcases List.mem_cons.1 h with h | h
      · exact .inr (h ▸ List.mem_cons_self)
      · exact (ih h).imp_right (List.mem_cons_of_mem _)

/-- The empty buffer has the canonical form. -/
theorem Memory.wf_nil : Memory.Wf [] := by simp [Memory.Wf]

/-- A write below 64 keeps the canonical form. -/
theorem memWrite_wf {m : Memory} {a : Nat} (v : Byte) (hm : Memory.Wf m) (ha : a < 64) :
    Memory.Wf (memWrite m a v) := by
  refine ⟨?_, fun c hc => ?_⟩
  · have hp := hm.1
    clear hm
    induction m with
    | nil => simp [memWrite]
    | cons d rest ih =>
      obtain ⟨b, x⟩ := d
      rw [List.pairwise_cons] at hp
      simp only [memWrite]
      split_ifs with h1 h2
      · refine List.pairwise_cons.2 ⟨fun c hc => ?_, List.pairwise_cons.2 hp⟩
        rcases List.mem_cons.1 hc with rfl | hc
        · exact h1
        · exact lt_trans h1 (hp.1 c hc)
      · exact List.pairwise_cons.2 ⟨fun c hc => h2 ▸ hp.1 c hc, hp.2⟩
      · refine List.pairwise_cons.2 ⟨fun c hc => ?_, ih hp.2⟩
        rcases mem_memWrite hc with rfl | hc
        · show b < a
          omega
        · exact hp.1 c hc
  · rcases mem_memWrite hc with rfl | hc
    · exact ha
    · exact hm.2 c hc

/-- A word read succeeds exactly where its four bytes are held, and joins them big-endian (R36, R38). -/
theorem memRead4_eq_some {m : Memory} {addr : Nat} {v : Word} :
    memRead4 m addr = some v ↔
      ∃ b0 b1 b2 b3, memRead m addr = some b0 ∧ memRead m (addr + 1) = some b1 ∧
        memRead m (addr + 2) = some b2 ∧ memRead m (addr + 3) = some b3 ∧ v = be32 b0 b1 b2 b3 := by
  constructor
  · intro h
    unfold memRead4 at h
    split at h
    · rename_i b0 b1 b2 b3 h0 h1 h2 h3
      cases h
      exact ⟨b0, b1, b2, b3, h0, h1, h2, h3, rfl⟩
    · cases h
  · rintro ⟨b0, b1, b2, b3, h0, h1, h2, h3, rfl⟩
    simp [memRead4, h0, h1, h2, h3]

end Sys2Proof.Machine
end

