-- ==== Sys2Proof/Laws/State.lean ====
section
/-!
SUPPORT. One lemma per field and per update of the state: what a field reads after an update. All are true
by unfolding the update once, so that no later proof has to.
-/
namespace Sys2Proof.Machine

/-! ## `respond` -/

@[simp] theorem respond_h (c : RespCode) (d : Word) (s : State) :
    (respond c d s).h = s.h := rfl
@[simp] theorem respond_work (c : RespCode) (d : Word) (s : State) :
    (respond c d s).work = s.work := rfl
@[simp] theorem respond_w (c : RespCode) (d : Word) (s : State) :
    (respond c d s).w = s.w := rfl
@[simp] theorem respond_blk (c : RespCode) (d : Word) (s : State) :
    (respond c d s).blk = s.blk := rfl
@[simp] theorem respond_len (c : RespCode) (d : Word) (s : State) :
    (respond c d s).len = s.len := rfl
@[simp] theorem respond_busy (c : RespCode) (d : Word) (s : State) :
    (respond c d s).busy = s.busy := rfl
@[simp] theorem respond_valid (c : RespCode) (d : Word) (s : State) :
    (respond c d s).valid = s.valid := rfl
@[simp] theorem respond_err (c : RespCode) (d : Word) (s : State) :
    (respond c d s).err = s.err := rfl
@[simp] theorem respond_ecause (c : RespCode) (d : Word) (s : State) :
    (respond c d s).ecause = s.ecause := rfl
@[simp] theorem respond_seq (c : RespCode) (d : Word) (s : State) :
    (respond c d s).seq = s.seq := rfl
@[simp] theorem respond_inbox (c : RespCode) (d : Word) (s : State) :
    (respond c d s).inbox = s.inbox := rfl
@[simp] theorem respond_outbox (c : RespCode) (d : Word) (s : State) :
    (respond c d s).outbox = ⟨c, d⟩ :: s.outbox := rfl
@[simp] theorem respond_resets (c : RespCode) (d : Word) (s : State) :
    (respond c d s).resets = s.resets := rfl

/-! ## `setReport` -/

@[simp] theorem setReport_h (s : State) :
    (setReport s).h = s.h := rfl
@[simp] theorem setReport_work (s : State) :
    (setReport s).work = s.work := rfl
@[simp] theorem setReport_w (s : State) :
    (setReport s).w = s.w := rfl
@[simp] theorem setReport_blk (s : State) :
    (setReport s).blk = s.blk := rfl
@[simp] theorem setReport_len (s : State) :
    (setReport s).len = s.len := rfl
@[simp] theorem setReport_busy (s : State) :
    (setReport s).busy = s.busy := rfl
@[simp] theorem setReport_valid (s : State) :
    (setReport s).valid = s.valid := rfl
@[simp] theorem setReport_err (s : State) :
    (setReport s).err = true := rfl
@[simp] theorem setReport_ecause (s : State) :
    (setReport s).ecause = 1 := rfl
@[simp] theorem setReport_seq (s : State) :
    (setReport s).seq = s.seq := rfl
@[simp] theorem setReport_inbox (s : State) :
    (setReport s).inbox = s.inbox := rfl
@[simp] theorem setReport_outbox (s : State) :
    (setReport s).outbox = s.outbox := rfl
@[simp] theorem setReport_resets (s : State) :
    (setReport s).resets = s.resets := rfl

/-! ## `clearReport` -/

@[simp] theorem clearReport_h (s : State) :
    (clearReport s).h = s.h := rfl
@[simp] theorem clearReport_work (s : State) :
    (clearReport s).work = s.work := rfl
@[simp] theorem clearReport_w (s : State) :
    (clearReport s).w = s.w := rfl
@[simp] theorem clearReport_blk (s : State) :
    (clearReport s).blk = s.blk := rfl
@[simp] theorem clearReport_len (s : State) :
    (clearReport s).len = s.len := rfl
@[simp] theorem clearReport_busy (s : State) :
    (clearReport s).busy = s.busy := rfl
@[simp] theorem clearReport_valid (s : State) :
    (clearReport s).valid = s.valid := rfl
@[simp] theorem clearReport_err (s : State) :
    (clearReport s).err = false := rfl
@[simp] theorem clearReport_ecause (s : State) :
    (clearReport s).ecause = 0 := rfl
@[simp] theorem clearReport_seq (s : State) :
    (clearReport s).seq = s.seq := rfl
@[simp] theorem clearReport_inbox (s : State) :
    (clearReport s).inbox = s.inbox := rfl
@[simp] theorem clearReport_outbox (s : State) :
    (clearReport s).outbox = s.outbox := rfl
@[simp] theorem clearReport_resets (s : State) :
    (clearReport s).resets = s.resets := rfl

/-! ## `setValid` -/

@[simp] theorem setValid_h (v : Bool) (s : State) :
    (setValid v s).h = s.h := rfl
@[simp] theorem setValid_work (v : Bool) (s : State) :
    (setValid v s).work = s.work := rfl
@[simp] theorem setValid_w (v : Bool) (s : State) :
    (setValid v s).w = s.w := rfl
@[simp] theorem setValid_blk (v : Bool) (s : State) :
    (setValid v s).blk = s.blk := rfl
@[simp] theorem setValid_len (v : Bool) (s : State) :
    (setValid v s).len = s.len := rfl
@[simp] theorem setValid_busy (v : Bool) (s : State) :
    (setValid v s).busy = s.busy := rfl
@[simp] theorem setValid_valid (v : Bool) (s : State) :
    (setValid v s).valid = v := rfl
@[simp] theorem setValid_err (v : Bool) (s : State) :
    (setValid v s).err = s.err := rfl
@[simp] theorem setValid_ecause (v : Bool) (s : State) :
    (setValid v s).ecause = s.ecause := rfl
@[simp] theorem setValid_seq (v : Bool) (s : State) :
    (setValid v s).seq = s.seq := rfl
@[simp] theorem setValid_inbox (v : Bool) (s : State) :
    (setValid v s).inbox = s.inbox := rfl
@[simp] theorem setValid_outbox (v : Bool) (s : State) :
    (setValid v s).outbox = s.outbox := rfl
@[simp] theorem setValid_resets (v : Bool) (s : State) :
    (setValid v s).resets = s.resets := rfl

/-! ## `setBusy` -/

@[simp] theorem setBusy_h (v : Bool) (s : State) :
    (setBusy v s).h = s.h := rfl
@[simp] theorem setBusy_work (v : Bool) (s : State) :
    (setBusy v s).work = s.work := rfl
@[simp] theorem setBusy_w (v : Bool) (s : State) :
    (setBusy v s).w = s.w := rfl
@[simp] theorem setBusy_blk (v : Bool) (s : State) :
    (setBusy v s).blk = s.blk := rfl
@[simp] theorem setBusy_len (v : Bool) (s : State) :
    (setBusy v s).len = s.len := rfl
@[simp] theorem setBusy_busy (v : Bool) (s : State) :
    (setBusy v s).busy = v := rfl
@[simp] theorem setBusy_valid (v : Bool) (s : State) :
    (setBusy v s).valid = s.valid := rfl
@[simp] theorem setBusy_err (v : Bool) (s : State) :
    (setBusy v s).err = s.err := rfl
@[simp] theorem setBusy_ecause (v : Bool) (s : State) :
    (setBusy v s).ecause = s.ecause := rfl
@[simp] theorem setBusy_seq (v : Bool) (s : State) :
    (setBusy v s).seq = s.seq := rfl
@[simp] theorem setBusy_inbox (v : Bool) (s : State) :
    (setBusy v s).inbox = s.inbox := rfl
@[simp] theorem setBusy_outbox (v : Bool) (s : State) :
    (setBusy v s).outbox = s.outbox := rfl
@[simp] theorem setBusy_resets (v : Bool) (s : State) :
    (setBusy v s).resets = s.resets := rfl

/-! ## `setSeq` -/

@[simp] theorem setSeq_h (ph : BitVec 3) (t : BitVec 6) (s : State) :
    (setSeq ph t s).h = s.h := rfl
@[simp] theorem setSeq_work (ph : BitVec 3) (t : BitVec 6) (s : State) :
    (setSeq ph t s).work = s.work := rfl
@[simp] theorem setSeq_w (ph : BitVec 3) (t : BitVec 6) (s : State) :
    (setSeq ph t s).w = s.w := rfl
@[simp] theorem setSeq_blk (ph : BitVec 3) (t : BitVec 6) (s : State) :
    (setSeq ph t s).blk = s.blk := rfl
@[simp] theorem setSeq_len (ph : BitVec 3) (t : BitVec 6) (s : State) :
    (setSeq ph t s).len = s.len := rfl
@[simp] theorem setSeq_busy (ph : BitVec 3) (t : BitVec 6) (s : State) :
    (setSeq ph t s).busy = s.busy := rfl
@[simp] theorem setSeq_valid (ph : BitVec 3) (t : BitVec 6) (s : State) :
    (setSeq ph t s).valid = s.valid := rfl
@[simp] theorem setSeq_err (ph : BitVec 3) (t : BitVec 6) (s : State) :
    (setSeq ph t s).err = s.err := rfl
@[simp] theorem setSeq_ecause (ph : BitVec 3) (t : BitVec 6) (s : State) :
    (setSeq ph t s).ecause = s.ecause := rfl
@[simp] theorem setSeq_seq (ph : BitVec 3) (t : BitVec 6) (s : State) :
    (setSeq ph t s).seq = seqOf ph t := rfl
@[simp] theorem setSeq_inbox (ph : BitVec 3) (t : BitVec 6) (s : State) :
    (setSeq ph t s).inbox = s.inbox := rfl
@[simp] theorem setSeq_outbox (ph : BitVec 3) (t : BitVec 6) (s : State) :
    (setSeq ph t s).outbox = s.outbox := rfl
@[simp] theorem setSeq_resets (ph : BitVec 3) (t : BitVec 6) (s : State) :
    (setSeq ph t s).resets = s.resets := rfl

/-! ## `setLen` -/

@[simp] theorem setLen_h (n : BitVec 7) (s : State) :
    (setLen n s).h = s.h := rfl
@[simp] theorem setLen_work (n : BitVec 7) (s : State) :
    (setLen n s).work = s.work := rfl
@[simp] theorem setLen_w (n : BitVec 7) (s : State) :
    (setLen n s).w = s.w := rfl
@[simp] theorem setLen_blk (n : BitVec 7) (s : State) :
    (setLen n s).blk = s.blk := rfl
@[simp] theorem setLen_len (n : BitVec 7) (s : State) :
    (setLen n s).len = n := rfl
@[simp] theorem setLen_busy (n : BitVec 7) (s : State) :
    (setLen n s).busy = s.busy := rfl
@[simp] theorem setLen_valid (n : BitVec 7) (s : State) :
    (setLen n s).valid = s.valid := rfl
@[simp] theorem setLen_err (n : BitVec 7) (s : State) :
    (setLen n s).err = s.err := rfl
@[simp] theorem setLen_ecause (n : BitVec 7) (s : State) :
    (setLen n s).ecause = s.ecause := rfl
@[simp] theorem setLen_seq (n : BitVec 7) (s : State) :
    (setLen n s).seq = s.seq := rfl
@[simp] theorem setLen_inbox (n : BitVec 7) (s : State) :
    (setLen n s).inbox = s.inbox := rfl
@[simp] theorem setLen_outbox (n : BitVec 7) (s : State) :
    (setLen n s).outbox = s.outbox := rfl
@[simp] theorem setLen_resets (n : BitVec 7) (s : State) :
    (setLen n s).resets = s.resets := rfl

/-! ## `writeBlk` -/

@[simp] theorem writeBlk_h (a : Nat) (v : Byte) (s : State) :
    (writeBlk a v s).h = s.h := rfl
@[simp] theorem writeBlk_work (a : Nat) (v : Byte) (s : State) :
    (writeBlk a v s).work = s.work := rfl
@[simp] theorem writeBlk_w (a : Nat) (v : Byte) (s : State) :
    (writeBlk a v s).w = s.w := rfl
@[simp] theorem writeBlk_blk (a : Nat) (v : Byte) (s : State) :
    (writeBlk a v s).blk = memWrite s.blk a v := rfl
@[simp] theorem writeBlk_len (a : Nat) (v : Byte) (s : State) :
    (writeBlk a v s).len = s.len := rfl
@[simp] theorem writeBlk_busy (a : Nat) (v : Byte) (s : State) :
    (writeBlk a v s).busy = s.busy := rfl
@[simp] theorem writeBlk_valid (a : Nat) (v : Byte) (s : State) :
    (writeBlk a v s).valid = s.valid := rfl
@[simp] theorem writeBlk_err (a : Nat) (v : Byte) (s : State) :
    (writeBlk a v s).err = s.err := rfl
@[simp] theorem writeBlk_ecause (a : Nat) (v : Byte) (s : State) :
    (writeBlk a v s).ecause = s.ecause := rfl
@[simp] theorem writeBlk_seq (a : Nat) (v : Byte) (s : State) :
    (writeBlk a v s).seq = s.seq := rfl
@[simp] theorem writeBlk_inbox (a : Nat) (v : Byte) (s : State) :
    (writeBlk a v s).inbox = s.inbox := rfl
@[simp] theorem writeBlk_outbox (a : Nat) (v : Byte) (s : State) :
    (writeBlk a v s).outbox = s.outbox := rfl
@[simp] theorem writeBlk_resets (a : Nat) (v : Byte) (s : State) :
    (writeBlk a v s).resets = s.resets := rfl

/-! ## `setH` -/

@[simp] theorem setH_h (h : Vector Word 8) (s : State) :
    (setH h s).h = h := rfl
@[simp] theorem setH_work (h : Vector Word 8) (s : State) :
    (setH h s).work = s.work := rfl
@[simp] theorem setH_w (h : Vector Word 8) (s : State) :
    (setH h s).w = s.w := rfl
@[simp] theorem setH_blk (h : Vector Word 8) (s : State) :
    (setH h s).blk = s.blk := rfl
@[simp] theorem setH_len (h : Vector Word 8) (s : State) :
    (setH h s).len = s.len := rfl
@[simp] theorem setH_busy (h : Vector Word 8) (s : State) :
    (setH h s).busy = s.busy := rfl
@[simp] theorem setH_valid (h : Vector Word 8) (s : State) :
    (setH h s).valid = s.valid := rfl
@[simp] theorem setH_err (h : Vector Word 8) (s : State) :
    (setH h s).err = s.err := rfl
@[simp] theorem setH_ecause (h : Vector Word 8) (s : State) :
    (setH h s).ecause = s.ecause := rfl
@[simp] theorem setH_seq (h : Vector Word 8) (s : State) :
    (setH h s).seq = s.seq := rfl
@[simp] theorem setH_inbox (h : Vector Word 8) (s : State) :
    (setH h s).inbox = s.inbox := rfl
@[simp] theorem setH_outbox (h : Vector Word 8) (s : State) :
    (setH h s).outbox = s.outbox := rfl
@[simp] theorem setH_resets (h : Vector Word 8) (s : State) :
    (setH h s).resets = s.resets := rfl

/-! ## `setWork` -/

@[simp] theorem setWork_h (r : Work) (s : State) :
    (setWork r s).h = s.h := rfl
@[simp] theorem setWork_work (r : Work) (s : State) :
    (setWork r s).work = r := rfl
@[simp] theorem setWork_w (r : Work) (s : State) :
    (setWork r s).w = s.w := rfl
@[simp] theorem setWork_blk (r : Work) (s : State) :
    (setWork r s).blk = s.blk := rfl
@[simp] theorem setWork_len (r : Work) (s : State) :
    (setWork r s).len = s.len := rfl
@[simp] theorem setWork_busy (r : Work) (s : State) :
    (setWork r s).busy = s.busy := rfl
@[simp] theorem setWork_valid (r : Work) (s : State) :
    (setWork r s).valid = s.valid := rfl
@[simp] theorem setWork_err (r : Work) (s : State) :
    (setWork r s).err = s.err := rfl
@[simp] theorem setWork_ecause (r : Work) (s : State) :
    (setWork r s).ecause = s.ecause := rfl
@[simp] theorem setWork_seq (r : Work) (s : State) :
    (setWork r s).seq = s.seq := rfl
@[simp] theorem setWork_inbox (r : Work) (s : State) :
    (setWork r s).inbox = s.inbox := rfl
@[simp] theorem setWork_outbox (r : Work) (s : State) :
    (setWork r s).outbox = s.outbox := rfl
@[simp] theorem setWork_resets (r : Work) (s : State) :
    (setWork r s).resets = s.resets := rfl

/-! ## `writeW` -/

@[simp] theorem writeW_h (t : BitVec 6) (v : Word) (s : State) :
    (writeW t v s).h = s.h := rfl
@[simp] theorem writeW_work (t : BitVec 6) (v : Word) (s : State) :
    (writeW t v s).work = s.work := rfl
@[simp] theorem writeW_w (t : BitVec 6) (v : Word) (s : State) :
    (writeW t v s).w = s.w.set t.toNat v t.isLt := rfl
@[simp] theorem writeW_blk (t : BitVec 6) (v : Word) (s : State) :
    (writeW t v s).blk = s.blk := rfl
@[simp] theorem writeW_len (t : BitVec 6) (v : Word) (s : State) :
    (writeW t v s).len = s.len := rfl
@[simp] theorem writeW_busy (t : BitVec 6) (v : Word) (s : State) :
    (writeW t v s).busy = s.busy := rfl
@[simp] theorem writeW_valid (t : BitVec 6) (v : Word) (s : State) :
    (writeW t v s).valid = s.valid := rfl
@[simp] theorem writeW_err (t : BitVec 6) (v : Word) (s : State) :
    (writeW t v s).err = s.err := rfl
@[simp] theorem writeW_ecause (t : BitVec 6) (v : Word) (s : State) :
    (writeW t v s).ecause = s.ecause := rfl
@[simp] theorem writeW_seq (t : BitVec 6) (v : Word) (s : State) :
    (writeW t v s).seq = s.seq := rfl
@[simp] theorem writeW_inbox (t : BitVec 6) (v : Word) (s : State) :
    (writeW t v s).inbox = s.inbox := rfl
@[simp] theorem writeW_outbox (t : BitVec 6) (v : Word) (s : State) :
    (writeW t v s).outbox = s.outbox := rfl
@[simp] theorem writeW_resets (t : BitVec 6) (v : Word) (s : State) :
    (writeW t v s).resets = s.resets := rfl

end Sys2Proof.Machine
end

