-- ==== Sys2Proof/Laws/Operands.lean ====
section
/-!
SUPPORT. The laws of the indexed stores: a schedule word after a write of the schedule
(spec/10_state.md R17), and the bytes of a joined word (spec/40_datapath.md R78, R79).
-/
namespace Sys2Proof.Machine

/-- `W[t]` after `W[t] <- v`. -/
@[simp] theorem wAt_set_same (w : Vector Word 64) (t : BitVec 6) (v : Word) :
    wAt (w.set t.toNat v t.isLt) t = v := by simp [wAt]

/-- The other schedule words after `W[t] <- v`. -/
theorem wAt_set_other (w : Vector Word 64) {t k : BitVec 6} (v : Word) (hne : k ≠ t) :
    wAt (w.set t.toNat v t.isLt) k = wAt w k := by
  have h : t.toNat ≠ k.toNat := fun h => hne (BitVec.eq_of_toNat_eq h.symm)
  simp only [wAt]
  exact Vector.getElem_set_ne t.isLt k.isLt h

/-- The bits of a joined word: byte 3 lowest, byte 0 highest. -/
theorem getLsbD_be32 (b0 b1 b2 b3 : Byte) (k : Nat) :
    (be32 b0 b1 b2 b3).getLsbD k =
      if k < 8 then b3.getLsbD k
      else if k < 16 then b2.getLsbD (k - 8)
      else if k < 24 then b1.getLsbD (k - 16)
      else b0.getLsbD (k - 24) := by
  unfold be32
  rw [BitVec.getLsbD_append, BitVec.getLsbD_append, BitVec.getLsbD_append]
  split_ifs <;> first | rfl | omega

/-- The bits of a byte of `ser32`. -/
theorem getLsbD_serByte (x : Word) (m k : Nat) :
    (serByte x m).getLsbD k = (decide (k < 8) && x.getLsbD (24 - 8 * m + k)) := by
  simp [serByte]

end Sys2Proof.Machine
end

