-- ==== Sys2Proof/Laws/Ops.lean ====
section
/-!
SUPPORT. One lemma per shared operation, saying once everything it can do: the common path of the
commands, the reads of the result, the turns of the machine, the fields of `SEQ`, and which answers an
instruction can give.
-/
namespace Sys2Proof.Machine

/-! ## The common path and the reads of the result -/

theorem unlessBusy_of_busy {s : State} (go : State) (h : s.busy = true) :
    unlessBusy s go = .next (refuse .eBusy s) := by simp [unlessBusy, h]

theorem unlessBusy_of_idle {s : State} (go : State) (h : s.busy = false) :
    unlessBusy s go = .next go := by simp [unlessBusy, h]

/-- The common path (R85) always answers a next state: the refusal, or what the command does. -/
theorem unlessBusy_next {s go t : State} (h : unlessBusy s go = .next t) :
    (s.busy = true ∧ t = refuse .eBusy s) ∨ (s.busy = false ∧ t = go) := by
  cases hb : s.busy <;> simp [unlessBusy, hb] at h <;> simp [h]

theorem readResult_of_valid {s : State} (v : Word) (h : s.valid = true) :
    readResult v s = respond .ok v s := by simp [readResult, h]

theorem readResult_of_not_valid {s : State} (v : Word) (h : s.valid = false) :
    readResult v s = refuse .eNoData s := by simp [readResult, h]

/-! ## The fields of `SEQ` -/

@[simp] theorem phField_seqOf (ph : BitVec 3) (t : BitVec 6) : phField (seqOf ph t) = ph := by
  revert ph t; decide

@[simp] theorem tField_seqOf (ph : BitVec 3) (t : BitVec 6) : tField (seqOf ph t) = t := by
  revert ph t; decide

/-! ## The turns -/

@[simp] theorem takeTurn_nil {s : State} (h : s.inbox = []) : takeTurn s = seqStep s := by
  simp [takeTurn, h]

@[simp] theorem takeTurn_seqTurn {s : State} {rest : List Event} (h : s.inbox = .seqTurn :: rest) :
    takeTurn s = seqStep { s with inbox := rest } := by simp [takeTurn, h]

@[simp] theorem takeTurn_command {s : State} {cw : BitVec 16} {rest : List Event}
    (h : s.inbox = .command cw :: rest) :
    takeTurn s = hostStep cw { s with inbox := rest } := by simp [takeTurn, h]

@[simp] theorem takeTurn_reset {s : State} {rest : List Event} (h : s.inbox = .reset :: rest) :
    takeTurn s = .done (resetEvent { s with inbox := rest }) := by simp [takeTurn, h]

/-- Everything a turn that performs an instruction can be: a command word the decoder accepts, or the
micro-operation of `SEQ`, in the state with the event taken out of the inbox. -/
theorem takeTurn_run {s t : State} {i : Instr} (h : takeTurn s = .run i t) :
    t = { s with inbox := s.inbox.tail } ∧
      ((∃ cw rest, s.inbox = .command cw :: rest ∧ decodeCommand cw = .ok i) ∨
        ((s.inbox = [] ∨ ∃ rest, s.inbox = .seqTurn :: rest) ∧ decodeMicro s.seq = .ok i)) := by
  unfold takeTurn at h
  split at h
  · rename_i hin
    unfold seqStep at h
    split at h
    · rename_i j hj
      cases h
      exact ⟨by cases s; simp_all, .inr ⟨.inl hin, hj⟩⟩
    · cases h
  · rename_i rest hin
    unfold seqStep at h
    split at h
    · rename_i j hj
      cases h
      exact ⟨by simp [hin], .inr ⟨.inr ⟨rest, hin⟩, hj⟩⟩
    · cases h
  · rename_i cw rest hin
    unfold hostStep at h
    split at h
    · rename_i j hj
      cases h
      exact ⟨by simp [hin], .inl ⟨cw, rest, hin, hj⟩⟩
    · cases h
  · cases h

/-- Everything a step that goes on can be: an instruction performed, an illegal word refused, or a
reset. -/
theorem step_next {s t : State} (h : step s = .next t) :
    (∃ i u, takeTurn s = .run i u ∧ exec i u = .next t) ∨
      (∃ cw rest r, s.inbox = .command cw :: rest ∧ decodeCommand cw = .error r ∧
        t = refuse .eIllegal { s with inbox := rest }) ∨
      (∃ rest, s.inbox = .reset :: rest ∧ t = resetEvent { s with inbox := rest }) := by
  unfold step at h
  split at h
  · rename_i i u hu
    exact .inl ⟨i, u, hu, h⟩
  · rename_i u hu
    cases h
    unfold takeTurn at hu
    split at hu
    · unfold seqStep at hu; split at hu <;> cases hu
    · unfold seqStep at hu; split at hu <;> cases hu
    · rename_i cw rest hin
      unfold hostStep at hu
      split at hu
      · cases hu
      · rename_i r hr
        cases hu
        exact .inr (.inl ⟨cw, rest, r, hin, hr, rfl⟩)
    · rename_i rest hin
      cases hu
      exact .inr (.inr ⟨rest, hin, rfl⟩)
  · cases h

/-! ## The answers of an instruction -/

/-- A block word whose four bytes are held: what `WLOAD` does (R97). -/
theorem execWload_of_read {s : State} {t : BitVec 4} {v : Word}
    (h : memRead4 s.blk (wordAddr t) = some v) :
    execWload t s =
      .next (if t.toNat < 15 then setSeq phWload (t.setWidth 6 + 1) (writeW (t.setWidth 6) v s)
             else setSeq phWexp 16 (writeW (t.setWidth 6) v s)) := by
  simp [execWload, h]

/-- If `WLOAD` goes on, the four bytes were held (R38). -/
theorem execWload_next {s u : State} {t : BitVec 4} (h : execWload t s = .next u) :
    ∃ v, memRead4 s.blk (wordAddr t) = some v ∧
      u = if t.toNat < 15 then setSeq phWload (t.setWidth 6 + 1) (writeW (t.setWidth 6) v s)
          else setSeq phWexp 16 (writeW (t.setWidth 6) v s) := by
  unfold execWload at h
  split at h
  · rename_i v hv
    cases h
    exact ⟨v, hv, rfl⟩
  · cases h

/-- If `WEXP` goes on, its index was legal (R60). -/
theorem execWexp_next {s u : State} {t : BitVec 6} (h : execWexp t s = .next u) : 16 ≤ t.toNat := by
  unfold execWexp at h
  split at h
  · assumption
  · cases h

end Sys2Proof.Machine
end

