-- ==== Sys2Proof/Laws/PerInstr.lean ====
section
/-!
SUPPORT. Statements made for every instruction, one lemma per constructor.

`EncodesInRow`: the word of an instruction belongs to the row of the opcode table that carries its
mnemonic (spec/30_encoding.md R66).
-/
namespace Sys2Proof.Laws.EncodesInRow

/-- The encoded word of a well-formed instruction selects the row of its mnemonic. -/
def Statement (i : Instr) : Prop :=
  i.WellFormed → ∃ r ∈ opcodeTable, selectsRow (encode i) r = true ∧ r.mnemonic = mnemonic i

theorem clr : Statement .clr := fun _ => by decide

theorem push (b : Byte) : Statement (.push b) := fun _ => by revert b; decide

theorem start : Statement .start := fun _ => by decide

theorem rdw (i : BitVec 3) : Statement (.rdw i) := fun _ => by revert i; decide

theorem rdb (j : BitVec 5) : Statement (.rdb j) := fun _ => by revert j; decide

theorem stat : Statement .stat := fun _ => by decide

theorem idle : Statement .idle := fun _ => by decide

theorem hinit : Statement .hinit := fun _ => by decide

theorem wload (t : BitVec 4) : Statement (.wload t) := fun _ => by revert t; decide

theorem wexp (t : BitVec 6) : Statement (.wexp t) := fun h => by revert t; decide

theorem rinit : Statement .rinit := fun _ => by decide

theorem round (t : BitVec 6) : Statement (.round t) := fun _ => by revert t; decide

theorem accum : Statement .accum := fun _ => by decide

end Sys2Proof.Laws.EncodesInRow
end

