-- ==== Sys2Proof/Machine/Assembly.lean ====
section
/-!
DEFINITION. The text of commands, micro-operations and responses (spec/30_encoding.md R63, R65): the
printer, and the assembler of one line of a host program. Notation only (spec/92_eei_decisions.md D17).
-/
namespace Sys2Proof.Machine

/-- A hexadecimal digit, in lower case. -/
def hexDigit (n : Nat) : Char :=
  if n < 10 then Char.ofNat (48 + n) else Char.ofNat (87 + n)

/-- The `k` low hexadecimal digits of a number, most significant first. -/
def hexDigits : Nat → Nat → List Char
  | 0, _ => []
  | k + 1, n => hexDigits k (n / 16) ++ [hexDigit (n % 16)]

/-- A number below 100 in decimal. -/
def decDigits (n : Nat) : List Char :=
  if n < 10 then [Char.ofNat (48 + n)] else [Char.ofNat (48 + n / 10), Char.ofNat (48 + n % 10)]

/-- The operand as R63 and R65 write it: a data byte as `0x` and two digits, an index in decimal. -/
def operandText : Instr → List Char
  | .push b => [' ', '0', 'x'] ++ hexDigits 2 b.toNat
  | .rdw i => ' ' :: decDigits i.toNat
  | .rdb j => ' ' :: decDigits j.toNat
  | .wload t => ' ' :: decDigits t.toNat
  | .wexp t => ' ' :: decDigits t.toNat
  | .round t => ' ' :: decDigits t.toNat
  | .clr | .start | .stat | .idle | .hinit | .rinit | .accum => []

/-- The mnemonic of R53 and R60, as characters. -/
def mnemonicText : Instr → List Char
  | .clr => ['C', 'L', 'R']
  | .push _ => ['P', 'U', 'S', 'H']
  | .start => ['S', 'T', 'A', 'R', 'T']
  | .rdw _ => ['R', 'D', 'W']
  | .rdb _ => ['R', 'D', 'B']
  | .stat => ['S', 'T', 'A', 'T']
  | .idle => ['I', 'D', 'L', 'E']
  | .hinit => ['H', 'I', 'N', 'I', 'T']
  | .wload _ => ['W', 'L', 'O', 'A', 'D']
  | .wexp _ => ['W', 'E', 'X', 'P']
  | .rinit => ['R', 'I', 'N', 'I', 'T']
  | .round _ => ['R', 'O', 'U', 'N', 'D']
  | .accum => ['A', 'C', 'C', 'U', 'M']

/-- An instruction's line (R63, R65). -/
def instrText (i : Instr) : List Char := mnemonicText i ++ operandText i

/-- The name of a response code (R58). -/
def codeText : RespCode → List Char
  | .ok => ['O', 'K']
  | .eInvLen => ['E', '_', 'I', 'N', 'V', 'L', 'E', 'N']
  | .eBusy => ['E', '_', 'B', 'U', 'S', 'Y']
  | .eNoData => ['E', '_', 'N', 'O', 'D', 'A', 'T', 'A']
  | .eIllegal => ['E', '_', 'I', 'L', 'L', 'E', 'G', 'A', 'L']

/-- A response as `code:data` (R63). -/
def responseText (r : Response) : List Char := codeText r.code ++ ':' :: hexDigits 8 r.data.toNat

/-- The line without its comment, which runs from `;` to the end (R63). -/
def dropComment (line : List Char) : List Char := line.takeWhile (· ≠ ';')

/-- The non-empty runs of characters between spaces. -/
def tokens (line : List Char) : List (List Char) :=
  (line.splitOn ' ').filter (· ≠ [])

/-- A decimal digit's value. -/
def decValue (c : Char) : Option Nat :=
  if '0' ≤ c ∧ c ≤ '9' then some (c.toNat - 48) else none

/-- A hexadecimal digit's value, in either case. -/
def hexValue (c : Char) : Option Nat :=
  if '0' ≤ c ∧ c ≤ '9' then some (c.toNat - 48)
  else if 'a' ≤ c ∧ c ≤ 'f' then some (c.toNat - 87)
  else if 'A' ≤ c ∧ c ≤ 'F' then some (c.toNat - 55)
  else none

/-- The value of a run of digits in a base, from the value so far. -/
def digitsValue (value : Char → Option Nat) (base : Nat) : List Char → Nat → Option Nat
  | [], acc => some acc
  | c :: rest, acc =>
    match value c with
    | some d => digitsValue value base rest (base * acc + d)
    | none => none

/-- An index: a decimal number (R63). -/
def parseIndex : List Char → Option Nat
  | [] => none
  | ds => digitsValue decValue 10 ds 0

/-- A data byte: two hexadecimal digits after `0x` (R63). -/
def parseByte : List Char → Option Nat
  | ['0', 'x', hi, lo] => digitsValue hexValue 16 [hi, lo] 0
  | _ => none

/-- A command whose operand, if it is in range, makes it. -/
def withOperand (n : Option Nat) (bound : Nat) (mk : Nat → Instr) : Option Instr :=
  match n with
  | some k => if k < bound then some (mk k) else none
  | none => none

/-- The host command a line of a program stands for (R63); micro-operations appear in no program (R65). -/
def parseLine (line : List Char) : Option Instr :=
  match tokens (dropComment line) with
  | [['C', 'L', 'R']] => some .clr
  | [['S', 'T', 'A', 'R', 'T']] => some .start
  | [['S', 'T', 'A', 'T']] => some .stat
  | [['P', 'U', 'S', 'H'], x] => withOperand (parseByte x) 256 fun k => .push (BitVec.ofNat 8 k)
  | [['R', 'D', 'W'], x] => withOperand (parseIndex x) 8 fun k => .rdw (BitVec.ofNat 3 k)
  | [['R', 'D', 'B'], x] => withOperand (parseIndex x) 32 fun k => .rdb (BitVec.ofNat 5 k)
  | _ => none

end Sys2Proof.Machine
end

