-- ==== Sys2Proof/Tests/Slice0.lean ====
section
/-!
SUPPORT. The model's own tests, each one step or one function on a small state, with the expected result
taken from the spec's worked examples and vectors (the file and rule named at each), and for every
statement with hypotheses a witness that meets them together (the second half).
-/
namespace Sys2Proof.Tests

open Sys2Proof Sys2Proof.Machine

/-! ## Small states -/

/-- A next state that passes a check. -/
def nextWith (r : Result) (check : State → Bool) : Bool :=
  match r with
  | .next t => check t
  | .fault _ => false
  | .refused _ => false

/-- The machine stops for this reason. -/
def stopsWith (r : Result) (f : Fault) : Bool :=
  match r with
  | .next _ => false
  | .fault e => decide (e = f)
  | .refused _ => false

/-- The 64 bytes `00 01 .. 3f` of spec/95_test_vectors.md D11. -/
def rampBlk : Memory := (List.range 64).map fun j => (j, BitVec.ofNat 8 j)

/-- `LEN = n` and nothing else since reset. -/
def withLen (n : BitVec 7) : State := { State.reset with len := n }

/-- 64 bytes supplied, nothing started. -/
def loaded : State := { State.reset with blk := rampBlk, len := 64 }

/-- `START` just accepted. -/
def started : State := { loaded with busy := true, seq := 0x040 }

/-- The words of the known vector, spec/95_test_vectors.md S1. -/
def s1Words : Vector Word 8 :=
  #v[0x7c1f10b8, 0x4e298e4a, 0x41b9cccb, 0xd47fe1dd, 0xff39dc61, 0x7bc32b10, 0x5b7dacb7, 0x66012995]

/-- A result is there to read. -/
def finished : State := { loaded with valid := true, h := s1Words }

/-- The failed `START` of `LEN = 3` (R88). -/
def failed : State := { withLen 3 with err := true, ecause := 1 }

/-- The state with this event first. -/
def next (e : Event) (s : State) : State := { s with inbox := e :: s.inbox }

/-- The latest response. -/
def answered (c : RespCode) (d : Word) (s : State) : Bool := decide (lastResponse s = some ⟨c, d⟩)

/-! ## Well-formedness smoke test -/

/-- The one check of `WellFormed` refuses an index below 16 (R60). -/
theorem test_wexp_index_15_ill_formed : ¬(Instr.wexp 15).WellFormed := by decide

theorem test_wexp_index_16_well_formed : (Instr.wexp 16).WellFormed := by decide

/-! ## Decoding: words written out from R52, R53, R59, R60 -/

theorem test_decode_clr : decodeCommand 0b0001000000000000 = .ok .clr := by decide
theorem test_decode_push : decodeCommand 0b0010000010100101 = .ok (.push 0xA5) := by decide
theorem test_decode_start : decodeCommand 0b0011000000000000 = .ok .start := by decide
theorem test_decode_rdw : decodeCommand 0b0100000000000110 = .ok (.rdw 6) := by decide
theorem test_decode_rdb : decodeCommand 0b0101000000010110 = .ok (.rdb 22) := by decide
theorem test_decode_stat : decodeCommand 0b0110000000000000 = .ok .stat := by decide
theorem test_decode_idle : decodeMicro 0b000000000 = .ok .idle := by decide
theorem test_decode_hinit : decodeMicro 0b001000000 = .ok .hinit := by decide
theorem test_decode_wload : decodeMicro 0b010001010 = .ok (.wload 10) := by decide
theorem test_decode_wexp : decodeMicro 0b011100001 = .ok (.wexp 33) := by decide
theorem test_decode_rinit : decodeMicro 0b100000000 = .ok .rinit := by decide
theorem test_decode_round : decodeMicro 0b101101001 = .ok (.round 41) := by decide
theorem test_decode_accum : decodeMicro 0b110000000 = .ok .accum := by decide

/-- The illegal words of spec/95_test_vectors.md D12. -/
theorem test_illegal_words :
    ([0x0000, 0x7000, 0xF000, 0xFFFF, 0x1001, 0x3001, 0x6001, 0x1100, 0x2100, 0x3F00, 0x4008, 0x40FF,
      0x5020, 0x50FF] : List (BitVec 16)).all
      (fun cw => match decodeCommand cw with | .ok _ => false | .error _ => true) = true := by decide

/-- The illegal values of `SEQ` of spec/95_test_vectors.md D14. -/
theorem test_illegal_seq :
    ([0x041, 0x090, 0x0c0, 0x0cf, 0x101, 0x181, 0x1c0] : List (BitVec 9)).all
      (fun q => match decodeMicro q with | .ok _ => false | .error _ => true) = true := by decide

/-! ## The datapath, spec/95_test_vectors.md D1, D2 -/

theorem test_add32 : add32 0xbb67ae85 0x92c1dfc5 = 0x4e298e4a := by decide
theorem test_rotr : rotr 0xdeadbeef 7 = 0xdfbd5b7d ∧ rotr 0x00000001 1 = 0x80000000 := by decide
theorem test_shr : shr 0x80000000 3 = 0x10000000 := by decide
theorem test_sig0 : sig0 0x6a09e667 = 0xba0cf582 := by decide
theorem test_sig1 : sig1 0x510e527f = 0xe3640132 := by decide
theorem test_sum0 : sum0 0x12345678 = 0x66146474 := by decide
theorem test_sum1 : sum1 0xdeadbeef = 0x345e14a3 := by decide
theorem test_ch : ch 0xf0f0f0f0 0xcccccccc 0xaaaaaaaa = 0xcacacaca := by decide
theorem test_maj : maj 0xf0f0f0f0 0xcccccccc 0xaaaaaaaa = 0xe8e8e8e8 := by decide
theorem test_be32 : be32 0xe4 0xe8 0x9d 0xf8 = 0xe4e89df8 := by decide
theorem test_ser32 : ser32 0x7c1f10b8 = #v[0x7c, 0x1f, 0x10, 0xb8] := by decide
theorem test_wnext : wnext 0 0 0 0x18 = 0x000f0000 := by decide

/-- The checks of R18 on the round constants: their sum and their exclusive-or. -/
theorem test_k_sum :
    let K := (List.range 64).map fun t => kAt (BitVec.ofNat 6 t)
    K.foldl (· + ·) 0 = 0x941d1755 ∧ K.foldl (· ^^^ ·) 0 = 0x95c49cf5 := by
  decide +kernel

/-- R18's table at its first entry, at the end of its first row and the start of its second, and at its
last entry. -/
theorem test_k_places :
    kAt 0 = 0x428a2f98 ∧ kAt 7 = 0xab1c5ed5 ∧ kAt 8 = 0xd807aa98 ∧ kAt 63 = 0xc67178f2 := by decide

/-- The checks of R19 on the initial values. -/
theorem test_h0_sum :
    h0Rom.toList.foldl (· + ·) 0 = 0x6ea8df67 ∧ h0Rom.toList.foldl (· ^^^ ·) 0 = 0xc62760eb := by
  decide

/-- The first 64 bytes of the source's known vector, spec/95_test_vectors.md S1. -/
def s1Block : List Byte :=
  [0x01, 0x00, 0x00, 0x00, 0xe4, 0xe8, 0x9d, 0xf8, 0x48, 0x1b, 0xc5, 0x76, 0xb9, 0x9f, 0x66, 0x57,
   0x62, 0xcb, 0x82, 0x66, 0xf8, 0x55, 0xc6, 0x68, 0x40, 0x16, 0xb8, 0xb4, 0xd1, 0x69, 0x76, 0xf2] ++
  [0x00, 0x00, 0x00, 0x00, 0xe1, 0xd1, 0x4f, 0x08, 0x98, 0xe6, 0x1d, 0x02, 0x4f, 0x0e, 0x01, 0x72,
   0xfc, 0x63, 0x46, 0x69, 0xf5, 0xfc, 0xd5, 0x6d, 0x4e, 0x01, 0xca, 0x10, 0xe9, 0x37, 0x7b, 0x05]

/-- The schedule of S1 at 16 and 63. -/
theorem test_schedule_s1 :
    schedule (byteOf s1Block) 16 = 0x8955f978 ∧ schedule (byteOf s1Block) 63 = 0x0de2fd5a := by
  decide +kernel

/-- The source's known vector (S1): the eight words its expected output holds. -/
theorem test_known_vector : compressCore h0Rom (byteOf s1Block) = s1Words := by decide +kernel

/-! ## The host commands -/

/-- R86's example: `LEN = 64, VALID = 1`, then `STATUS = 00000000`. -/
theorem test_clr :
    nextWith (exec .clr finished) (fun t => answered .ok 0 t && status t == 0) = true := by decide

/-- R87's example: `LEN = 63`, `PUSH 0x05`. -/
theorem test_push_last :
    nextWith (exec (.push 0x05) (withLen 63))
      (fun t => answered .ok 0 t && memRead t.blk 63 == some 0x05 && t.len == 64) = true := by decide

/-- R87's example goes on: `PUSH 0x68` is discarded. -/
theorem test_push_discarded :
    nextWith (exec (.push 0x68) loaded)
      (fun t => answered .ok 0 t && t.blk == rampBlk && t.len == 64) = true := by decide

/-- R88's example: `LEN = 3`, `E_INVLEN:00000003`, then `STATUS = 00010403`. -/
theorem test_start_short :
    nextWith (exec .start (withLen 3))
      (fun t => answered .eInvLen 3 t && status t == 0x00010403 && t.seq == 0) = true := by decide

/-- R88's example: `LEN = 64`, then `STATUS = 00000140` and `SEQ = 0x040`. -/
theorem test_start :
    nextWith (exec .start loaded)
      (fun t => answered .ok 0 t && status t == 0x00000140 && t.seq == 0x040) = true := by decide

/-- R89's example. -/
theorem test_rdw : nextWith (exec (.rdw 7) finished) (answered .ok 0x66012995) = true := by decide

/-- D12's table: no result, no word. -/
theorem test_rdw_no_data : nextWith (exec (.rdw 0) loaded) (answered .eNoData 0) = true := by decide

/-- R90's examples. -/
theorem test_rdb :
    nextWith (exec (.rdb 3) finished) (answered .ok 0xb8) = true ∧
      nextWith (exec (.rdb 4) finished) (answered .ok 0x4e) = true := by decide

/-- P3: `RDB` while busy. -/
theorem test_rdb_busy : nextWith (exec (.rdb 0) started) (answered .eBusy 0) = true := by decide

/-- R91's example: during an invocation. -/
theorem test_stat_busy : nextWith (exec .stat started) (answered .ok 0x00000140) = true := by decide

/-- P2: the report after a failed `START`. -/
theorem test_stat_failed : nextWith (exec .stat failed) (answered .ok 0x00010403) = true := by decide

/-! ## The sequencer -/

/-- R95's example: after reset `SEQ` stays `0x000`. -/
theorem test_idle : nextWith (step State.reset) (fun t => t.seq == 0 && t.outbox == []) = true := by
  decide

/-- R96's example. -/
theorem test_hinit :
    nextWith (exec .hinit started)
      (fun t => t.h[0] == 0x6a09e667 && t.h[7] == 0x5be0cd19 && t.seq == 0x080) = true := by decide

/-- R97's example: `BLK[4..7] = e4 e8 9d f8`. -/
theorem test_wload :
    nextWith
      (exec (.wload 1)
        { State.reset with blk := [(4, 0xe4), (5, 0xe8), (6, 0x9d), (7, 0xf8)] })
      (fun t => wAt t.w 1 == 0xe4e89df8 && t.seq == 0x082) = true := by decide

/-- D11: the last block word, and R102: `{WEXP, 16}` follows. -/
theorem test_wload_last :
    nextWith (exec (.wload 15) started)
      (fun t => wAt t.w 15 == 0x3c3d3e3f && t.seq == 0x0d0) = true := by decide

/-- R98's example. -/
theorem test_wexp :
    nextWith
      (exec (.wexp 16)
        (writeW 0 0x01000000 (writeW 1 0xe4e89df8 (writeW 9 0xe1d14f08 (writeW 14 0x4e01ca10 started)))))
      (fun t => wAt t.w 16 == 0x8955f978 && t.seq == 0x0d1) = true := by decide

/-- R61: `{WEXP, 15}` is no micro-operation. -/
theorem test_wexp_illegal : stopsWith (exec (.wexp 15) started) .illegalSeq = true := by decide

/-- R99's example. -/
theorem test_rinit :
    nextWith (exec .rinit (setH h0Rom started))
      (fun t => t.work.a == 0x6a09e667 && t.work.e == 0x510e527f && t.work.h == 0x5be0cd19 &&
        t.seq == 0x140) = true := by decide

/-- R100's example: round 0 of the known vector. -/
theorem test_round :
    nextWith (exec (.round 0) (writeW 0 0x01000000 (setWork (workOf h0Rom) started)))
      (fun t => t.work == ⟨0xfd08884d, 0x6a09e667, 0xbb67ae85, 0x3c6ef372, 0x99c7e2a2, 0x510e527f,
        0x9b05688c, 0x1f83d9ab⟩ && t.seq == 0x141) = true := by decide

/-- R101's example: the end of the known vector. -/
theorem test_accum :
    nextWith
      (exec .accum
        (setH h0Rom (setWork ⟨0x12152a51, 0x92c1dfc5, 0x054ad959, 0x2f2feca3, 0xae2b89e2, 0xe0bdc284,
          0x3bf9d30c, 0x0a205c7c⟩ started)))
      (fun t => t.h == s1Words && status t == 0x00000240 && t.seq == 0) = true := by decide

/-! ## A step -/

/-- P3: an illegal word is reported as illegal even while busy. -/
theorem test_illegal_while_busy :
    nextWith (step (next (.command 0x7000) started))
      (fun t => answered .eIllegal 0 t && t.busy && t.inbox == []) = true := by decide

/-- R141: reset while busy leaves no result and no block. -/
theorem test_reset_while_busy :
    nextWith (step (next .reset started))
      (fun t => !t.busy && !t.valid && t.seq == 0 && memRead t.blk 0 == none) = true := by decide

/-- R38, R30: a block word that was never written is not read. -/
theorem test_wload_unwritten :
    stopsWith (step { State.reset with seq := 0x080 }) .noValue = true := by decide

/-- The table's words of both formats: `PUSH` with operand `0x61`, and `ROUND 5`. -/
theorem test_table_words :
    decodeTableWord 16 0x2061 = some (.push 0x61) ∧ decodeTableWord 9 0x145 = some (.round 5) ∧
      decodeTableWord 16 0x145 = some (.round 5) ∧ decodeTableWord 16 0x0000 = some .idle ∧
      decodeTableWord 16 0x7000 = none := by decide

/-- What `withFetchWord` places is what the next step runs. -/
theorem test_fetch_word :
    nextWith (step (State.reset.withFetchWord 16 0x20A5)) (fun t => memRead t.blk 0 == some 0xA5) = true ∧
      nextWith (step (State.reset.withFetchWord 9 0x040)) (fun t => t.seq == 0x080) = true := by
  decide

/-! ## Text, R63 -/

theorem test_text_push :
    instrText (.push 0x7b) = ['P', 'U', 'S', 'H', ' ', '0', 'x', '7', 'b'] := by decide

theorem test_text_line :
    parseLine ['R', 'D', 'B', ' ', '3', '1', ' ', ';', ' ', 'x'] = some (.rdb 31) := by decide

/-! ## Witnesses: states and operands that meet the hypotheses of each statement -/

theorem holds_ramp : HoldsBlock started (fun j => BitVec.ofNat 8 j) := by
  unfold HoldsBlock; decide

theorem inv_reset : CoreInv State.reset := by
  constructor <;> simp [State.reset, State.resetAt, Memory.Wf] <;> decide

theorem inv_loaded : CoreInv loaded := by
  constructor <;> decide

theorem inv_started : CoreInv started := by
  constructor <;> decide

theorem inv_finished : CoreInv finished := by
  constructor <;> decide

/-- The invariants do not depend on the inbox. -/
theorem inv_inbox {s : State} (h : CoreInv s) (l : List Event) : CoreInv { s with inbox := l } :=
  ⟨h.lenLe, h.validLen, h.busyFlags, h.validIdle, h.causeOfErr, h.causeOfNoErr, h.busySeq,
    h.errNoResult, h.seqLegal, h.blkWf, h.blkHeld⟩

theorem witness_DecodeOfEncode : (Instr.wexp 16).WellFormed ∧ (Instr.wexp 63).WellFormed := by decide

theorem witness_EncodeOfDecode :
    decode (.command 0x20FF) = .ok (.push 0xFF) ∧ decode (.micro 0x0D0) = .ok (.wexp 16) := by decide

theorem witness_CommandWordLegal :
    decodeCommand 0x501F = .ok (.rdb 31) ∧ legalCommand 0x501F = true ∧
      legalCommand 0x5020 = false := by decide

theorem witness_MicroWordLegal :
    decodeMicro 0x08F = .ok (.wload 15) ∧ legalSeq 0x08F = true ∧ legalSeq 0x090 = false := by decide

theorem witness_OpcodeRowsSelect :
    decode (.micro 0x0D0) = .ok (.wexp 16) ∧
      selectsRow (.micro 0x0D0) ⟨"WEXP", false, 0x0C0, 0x1C0, 16⟩ = true ∧
      (⟨"WEXP", false, 0x0C0, 0x1C0, 16⟩ : TableRow) ∈ opcodeTable := by decide

theorem witness_StepPerformsCommand :
    (next (.command 0x4007) finished).inbox = .command 0x4007 :: [] ∧
      decodeCommand 0x4007 = .ok (.rdw 7) := by decide

theorem witness_StepPerformsMicroOperation :
    decodeMicro started.seq = .ok .hinit ∧ started.inbox = [] ∧
      (next .seqTurn started).inbox = .seqTurn :: [] := by decide

theorem witness_IllegalCommandWordRefused :
    (next (.command 0x4008) started).inbox = .command 0x4008 :: [] ∧ legalCommand 0x4008 = false := by
  decide

theorem witness_IllegalSequencerValueStops :
    ({ started with seq := 0x0CF } : State).inbox = [] ∧
      legalSeq ({ started with seq := 0x0CF } : State).seq = false ∧ (15#6).toNat < 16 := by decide

theorem witness_WloadOfUnwrittenByteStops :
    memRead State.reset.blk (4 * (0#4).toNat + 3) = none ∧
      memRead ({ State.reset with blk := [(0, 1), (1, 2), (2, 3)] } : State).blk
        (4 * (0#4).toNat + 3) = none := by decide

theorem witness_ResetEventAbandons : (next .reset started).inbox = .reset :: [] := by decide

theorem witness_ClrBeginsInvocation : finished.busy = false := by decide

theorem witness_PushStoresByte :
    (withLen 0).busy = false ∧ (withLen 0).len.toNat < 64 ∧
      (withLen 63).busy = false ∧ (withLen 63).len.toNat < 64 := by decide

theorem witness_PushBeyondBlockDiscarded : loaded.busy = false ∧ 64 ≤ loaded.len.toNat := by decide

theorem witness_StartAccepted : finished.busy = false ∧ 64 ≤ finished.len.toNat := by decide

theorem witness_StartRaisesInvalidLength :
    (withLen 63).busy = false ∧ (withLen 63).len.toNat < 64 := by decide

theorem witness_RdwReadsWord : finished.busy = false ∧ finished.valid = true := by decide

theorem witness_RdbReadsByte : finished.busy = false ∧ finished.valid = true := by decide

theorem witness_BusyRefusesCommands :
    isCommand (.push 0) = true ∧ Instr.push 0 ≠ .stat ∧ started.busy = true := by decide

theorem witness_NoDataWithoutResult : loaded.busy = false ∧ loaded.valid = false := by decide

theorem witness_OneResponsePerCommand :
    (next (.command 0xFFFF) started).inbox = .command 0xFFFF :: [] ∧
      ∃ t, (∀ cw rest, (next .seqTurn started).inbox ≠ .command cw :: rest) ∧
        step (next .seqTurn started) = .next t :=
  ⟨by decide, _, by simp [next], rfl⟩

theorem witness_OutcomePriority :
    (next (.command 0x3000) (withLen 63)).inbox = .command 0x3000 :: [] := by decide

theorem witness_RefusalsWriteNothing_busy :
    ∃ t, step (next (.command 0x1000) started) = .next t ∧ t.outbox = ⟨.eBusy, 0⟩ :: started.outbox :=
  ⟨_, rfl, rfl⟩

theorem witness_RefusalsWriteNothing_noData :
    ∃ t, step (next (.command 0x4000) loaded) = .next t ∧ t.outbox = ⟨.eNoData, 0⟩ :: loaded.outbox :=
  ⟨_, rfl, rfl⟩

theorem witness_RefusalsWriteNothing_illegal :
    ∃ t, step (next (.command 0x0000) loaded) = .next t ∧
      t.outbox = ⟨.eIllegal, 0⟩ :: loaded.outbox :=
  ⟨_, rfl, rfl⟩

theorem witness_WloadLoadsWord :
    memRead started.blk (4 * (15#4).toNat) = some 60 ∧
      memRead started.blk (4 * (15#4).toNat + 1) = some 61 ∧
      memRead started.blk (4 * (15#4).toNat + 2) = some 62 ∧
      memRead started.blk (4 * (15#4).toNat + 3) = some 63 := by decide

theorem witness_WexpExtendsSchedule : 16 ≤ (16#6).toNat ∧ 16 ≤ (63#6).toNat := by decide

theorem witness_HostCommandFrame :
    (∃ t, isCommand .clr = true ∧ exec .clr finished = .next t) ∧
      (∃ t, isCommand .start = true ∧ exec .start loaded = .next t) ∧
      (∃ t, isCommand (.push 7) = true ∧ exec (.push 7) (withLen 63) = .next t) ∧
      ∃ t, isCommand .stat = true ∧ exec .stat started = .next t :=
  ⟨⟨_, rfl, rfl⟩, ⟨_, rfl, rfl⟩, ⟨_, rfl, rfl⟩, ⟨_, rfl, rfl⟩⟩

theorem witness_ReadCommandFrame :
    (∃ t, exec .stat started = .next t) ∧ (∃ t, exec (.rdw 7) finished = .next t) ∧
      ∃ t, exec (.rdb 31) finished = .next t :=
  ⟨⟨_, rfl⟩, ⟨_, rfl⟩, ⟨_, rfl⟩⟩

theorem witness_PushFrame :
    (∃ t, exec (.push 1) (withLen 0) = .next t) ∧ (1 : Nat) ≠ (withLen 0).len.toNat ∧
      (∃ t, exec (.push 1) loaded = .next t) ∧ 64 ≤ loaded.len.toNat ∧
      (∃ t, exec (.push 1) started = .next t) ∧ started.busy = true :=
  ⟨⟨_, rfl⟩, by decide, ⟨_, rfl⟩, by decide, ⟨_, rfl⟩, by decide⟩

theorem witness_MicroOperationFrame :
    (∃ t, isCommand .hinit = false ∧ exec .hinit started = .next t) ∧
      (∃ t, isCommand (.wload 15) = false ∧ exec (.wload 15) started = .next t) ∧
      (∃ t, isCommand (.wexp 16) = false ∧ exec (.wexp 16) started = .next t) ∧
      (∃ t, isCommand .rinit = false ∧ exec .rinit started = .next t) ∧
      (∃ t, isCommand (.round 63) = false ∧ exec (.round 63) started = .next t) ∧
      ∃ t, isCommand .accum = false ∧ exec .accum started = .next t :=
  ⟨⟨_, rfl, rfl⟩, ⟨_, rfl, rfl⟩, ⟨_, rfl, rfl⟩, ⟨_, rfl, rfl⟩, ⟨_, rfl, rfl⟩, ⟨_, rfl, rfl⟩⟩

theorem witness_RotrPermutesBits : (1 ≤ 1 ∧ 1 ≤ 31) ∧ (1 ≤ 31 ∧ 31 ≤ 31) ∧ 31 < 32 := by decide

theorem witness_SigmaBits : 0 < 32 ∧ 31 < 32 ∧ 31 + 3 ≥ 32 := by decide

theorem witness_ChooseAndMajority : 0 < 32 ∧ 31 < 32 := by decide

theorem witness_ScheduleRecurrence : 15 < 16 ∧ 16 ≤ 16 ∧ 16 < 64 ∧ 63 < 64 := by decide

theorem witness_OnlyFirstSixtyFourBytesMatter :
    (∀ j < 64, byteOf s1Block j = byteOf (s1Block ++ [0x68]) j) ∧
      byteOf s1Block 64 ≠ byteOf (s1Block ++ [0x68]) 64 := by decide

theorem witness_WordAndByteViewsAgree : 3 < 4 ∧ finished.busy = false ∧ finished.valid = true := by
  decide

theorem witness_SequencerTakesSuccessor :
    CoreInv started ∧ started.inbox = [] ∧ CoreInv State.reset ∧ State.reset.seq = 0x000 ∧
      (∃ t, step (next (.command 0x3000) loaded) = .next t) ∧
      loaded.busy = false ∧ 64 ≤ loaded.len.toNat :=
  ⟨inv_started, by decide, inv_reset, by decide, ⟨_, rfl⟩, by decide, by decide⟩

theorem witness_InvocationTakes131Steps :
    CoreInv started ∧ started.seq = 0x040 ∧ started.inbox = [] :=
  ⟨inv_started, by decide, by decide⟩

theorem witness_SequencerComputesCompressCore :
    Started started (fun j => BitVec.ofNat 8 j) ∧ started.inbox = [] :=
  ⟨⟨by decide, by decide, holds_ramp⟩, by decide⟩

theorem witness_HostCannotDisturbInvocation :
    let before := .command 0x20FF :: (List.replicate 130 Event.seqTurn ++ [.command 0x6000])
    Started { started with inbox := before ++ [.seqTurn] } (fun j => BitVec.ofNat 8 j) ∧
      Event.reset ∉ before ∧ before.count .seqTurn = 130 :=
  ⟨⟨by decide, by decide, holds_ramp⟩, by decide, by decide +kernel⟩

theorem witness_StepKeepsInvariants :
    ∃ t, CoreInv started ∧ step started = .next t := ⟨_, inv_started, rfl⟩

theorem witness_StepKeepsBufferForm :
    ∃ t, Memory.Wf (next (.command 0x2001) (withLen 63)).blk ∧
      step (next (.command 0x2001) (withLen 63)) = .next t := ⟨_, by decide, rfl⟩

theorem witness_NothingStopsTheMachine : CoreInv State.reset ∧ CoreInv started :=
  ⟨inv_reset, inv_started⟩

theorem witness_StatusShapes : CoreInv loaded ∧ CoreInv started ∧ CoreInv finished :=
  ⟨inv_loaded, inv_started, inv_finished⟩

theorem witness_BusyAnswersHideProgress :
    CoreInv (next (.command 0x6000) started) ∧
      CoreInv (next (.command 0x6000) { started with seq := 0x17F }) ∧
      (next (.command 0x6000) started).inbox = .command 0x6000 :: [] ∧
      ({ started with seq := 0x17F } : State).busy = true := by
  refine ⟨inv_inbox inv_started _, inv_inbox ?_ _, by decide, by decide⟩
  constructor <;> decide

theorem witness_NoHistoryDependence :
    CoreInv (next (.command 0x1000) finished) ∧ CoreInv (next (.command 0x1000) State.reset) ∧
      finished.busy = false ∧ State.reset.busy = false ∧
      (next (.command 0x1000) finished).inbox = .command 0x1000 :: [] ∧
      (next (.command 0x1000) State.reset).inbox = .command 0x1000 :: [] :=
  ⟨inv_inbox inv_finished _, inv_inbox inv_reset _, by decide, by decide, by decide, by decide⟩

theorem witness_InvocationCannotHang : CoreInv (next (.command 0x3000) loaded) :=
  inv_inbox inv_loaded _

theorem witness_ShortInputFails :
    CoreInv State.reset ∧ State.reset.busy = false ∧ (List.replicate 63 (0xFF : Byte)).length < 64 :=
  ⟨inv_reset, by decide, by decide⟩

theorem witness_LongInputCompresses :
    CoreInv finished ∧ finished.busy = false ∧ 64 ≤ s1Block.length ∧ 131 ≤ [0, 130, 1].sum :=
  ⟨inv_finished, by decide, by decide, by decide⟩

theorem witness_InstancesAreIndependent :
    ∃ y1 y2 : System 2, stepInstance 0 (System.reset fun k => k) = .next y1 ∧
      stepInstance 1 y1 = .next y2 := ⟨_, _, rfl, rfl⟩

end Sys2Proof.Tests
end

/-! # The state: what an instruction changes and leaves, the invariants, and what the host can see -/

namespace Sys2Proof.Machine

/-! ## The decoder's answers -/

/-- A word without an operand decodes only with `arg = 0` (R54). -/
theorem noOperand_eq_ok {arg : BitVec 8} {i j : Instr} :
    noOperand arg i = .ok j ↔ arg = 0 ∧ i = j := by
  unfold noOperand
  split_ifs with h
  · simp [h]
  · simp only [h, false_and]

/-- What the decoder reads from a command word is a host command (R53). -/
theorem isCommand_of_decodeCommand {cw : BitVec 16} {i : Instr} (h : decodeCommand cw = .ok i) :
    isCommand i = true := by
  simp only [decodeCommand] at h
  split at h
  · cases h
  · split at h
    · rw [← (noOperand_eq_ok.1 h).2]; rfl
    · cases h; rfl
    · rw [← (noOperand_eq_ok.1 h).2]; rfl
    · split_ifs at h; cases h; rfl
    · split_ifs at h; cases h; rfl
    · rw [← (noOperand_eq_ok.1 h).2]; rfl
    · cases h

/-- What the sequencer reads from `SEQ` is a micro-operation in range, and `SEQ` is its word (R60). -/
theorem decodeMicro_ok {q : BitVec 9} {i : Instr} (h : decodeMicro q = .ok i) :
    isCommand i = false ∧ i.WellFormed ∧ encode i = .micro q := by
  have all : ∀ q : BitVec 9, ∀ i ∈ (decodeMicro q).toOption,
      isCommand i = false ∧ i.WellFormed ∧ encode i = .micro q := by decide
  exact all q i (by rw [h]; rfl)

/-- The sequencer finds a micro-operation in every legal value of `SEQ` (R60). -/
theorem decodeMicro_of_legalSeq {q : BitVec 9} (h : legalSeq q = true) :
    ∃ i, decodeMicro q = .ok i := by
  have all : ∀ q : BitVec 9, (decodeMicro q).isOk = legalSeq q := by decide
  have hok := (all q).trans h
  cases hd : decodeMicro q with
  | ok i => exact ⟨i, rfl⟩
  | error e => rw [hd] at hok; cases hok

theorem legalSeq_wload : ∀ t : BitVec 6, t.toNat ≤ 15 → legalSeq (seqOf phWload t) = true := by decide

theorem legalSeq_wexp : ∀ t : BitVec 6, 16 ≤ t.toNat → legalSeq (seqOf phWexp t) = true := by decide

theorem legalSeq_round : ∀ t : BitVec 6, legalSeq (seqOf phRound t) = true := by decide

/-- The one legal value of `SEQ` in the idle phase (R60). -/
theorem seq_eq_zero_of_idle : ∀ q : BitVec 9, legalSeq q = true → phField q = phIdle → q = 0 := by
  decide

/-! ## What an instruction can do -/

/-- Everything a host command can do to the state (R85 to R91); which response an unchanged state
gives is left open. -/
inductive CommandEffect (s : State) : Instr → State → Prop where
  /-- Only a response: a refusal, a read, the status, or a byte discarded. -/
  | answer (i : Instr) (c : RespCode) (d : Word) : CommandEffect s i (respond c d s)
  /-- `CLR` (R86). -/
  | clear (hidle : s.busy = false) :
      CommandEffect s .clr (respond .ok 0 (clearReport (setValid false (setLen 0 s))))
  /-- `PUSH` of a byte that is stored (R87). -/
  | store (b : Byte) (hidle : s.busy = false) (hlen : s.len.toNat < 64) :
      CommandEffect s (.push b) (respond .ok 0 (setLen (s.len + 1) (writeBlk s.len.toNat b s)))
  /-- `START` with too few bytes (R125). -/
  | short (hidle : s.busy = false) (hlen : s.len.toNat < 64) :
      CommandEffect s .start (raiseInvalidLength s)
  /-- `START` accepted (R88). -/
  | accept (hidle : s.busy = false) (hlen : 64 ≤ s.len.toNat) :
      CommandEffect s .start
        (respond .ok 0 (setSeq phHinit 0 (setBusy true (clearReport (setValid false s)))))

/-- A read of the result only answers (R89, R90). -/
theorem commandEffect_readResult (i : Instr) (v : Word) (s : State) :
    CommandEffect s i (readResult v s) := by
  unfold readResult
  split
  · exact .answer ..
  · exact .answer ..

/-- On the common path a command is refused, or does what it does while idle (R85). -/
theorem commandEffect_of_unlessBusy {i : Instr} {s go t : State} (h : unlessBusy s go = .next t)
    (hgo : s.busy = false → CommandEffect s i go) : CommandEffect s i t := by
  rcases unlessBusy_next h with ⟨-, rfl⟩ | ⟨hidle, rfl⟩
  · exact .answer ..
  · exact hgo hidle

/-- A host command that goes on does nothing else than `CommandEffect` lists. -/
theorem exec_commandEffect {i : Instr} {s t : State} (hi : isCommand i = true)
    (h : exec i s = .next t) : CommandEffect s i t := by
  cases i with
  | clr => exact commandEffect_of_unlessBusy h .clear
  | push b =>
    refine commandEffect_of_unlessBusy h fun hidle => ?_
    split_ifs with hlen
    · exact .store b hidle hlen
    · exact .answer ..
  | start =>
    refine commandEffect_of_unlessBusy h fun hidle => ?_
    split_ifs with hlen
    · exact .short hidle (of_decide_eq_true hlen)
    · exact .accept hidle (by simpa [tooShort] using hlen)
  | rdw k => exact commandEffect_of_unlessBusy h fun _ => commandEffect_readResult ..
  | rdb j => exact commandEffect_of_unlessBusy h fun _ => commandEffect_readResult ..
  | stat => cases h; exact .answer ..
  | idle | hinit | wload _ | wexp _ | rinit | round _ | accum => cases hi

/-- `{ph, t}` is a value of `SEQ` of a running invocation (R26 (f), R106). -/
structure RunningSeq (ph : BitVec 3) (t : BitVec 6) : Prop where
  notIdle : ph ≠ phIdle
  legal : legalSeq (seqOf ph t) = true

/-- What the sequencer's instructions do to the state (R95 to R101); which running value of `SEQ`
follows, and which word a schedule write stores, is left open. -/
inductive MicroEffect (s : State) : Instr → State → Prop where
  | idle : MicroEffect s .idle s
  | hinit {ph : BitVec 3} {t : BitVec 6} (hseq : RunningSeq ph t) :
      MicroEffect s .hinit (setSeq ph t (setH h0Rom s))
  | wload (k : BitVec 4) (v : Word) {ph : BitVec 3} {t : BitVec 6} (hseq : RunningSeq ph t) :
      MicroEffect s (.wload k) (setSeq ph t (writeW (k.setWidth 6) v s))
  | wexp (k : BitVec 6) (v : Word) {ph : BitVec 3} {t : BitVec 6} (hseq : RunningSeq ph t) :
      MicroEffect s (.wexp k) (setSeq ph t (writeW k v s))
  | rinit {ph : BitVec 3} {t : BitVec 6} (hseq : RunningSeq ph t) :
      MicroEffect s .rinit (setSeq ph t (setWork (workOf s.h) s))
  | round (k : BitVec 6) {ph : BitVec 3} {t : BitVec 6} (hseq : RunningSeq ph t) :
      MicroEffect s (.round k)
        (setSeq ph t (setWork (compressRound s.work (kAt k) (wAt s.w k)) s))
  | accum :
      MicroEffect s .accum
        (setSeq phIdle 0 (setBusy false (setValid true (setH (accumulate s.h s.work) s))))

/-- An instruction of the sequencer that goes on does nothing else than `MicroEffect` lists. -/
theorem exec_microEffect {i : Instr} {s t : State} (hi : isCommand i = false)
    (h : exec i s = .next t) : MicroEffect s i t := by
  cases i with
  | clr | push _ | start | rdw _ | rdb _ | stat => cases hi
  | idle => cases h; exact .idle
  | hinit => cases h; exact .hinit ⟨by decide, by decide⟩
  | wload k =>
    obtain ⟨v, -, rfl⟩ := execWload_next h
    split_ifs with hk
    · refine .wload k v ⟨by decide, legalSeq_wload _ ?_⟩
      clear h
      revert k; decide
    · exact .wload k v ⟨by decide, by decide⟩
  | wexp k =>
    have hk : 16 ≤ k.toNat := execWexp_next h
    simp only [exec, execWexp, hk, if_true, Host.Outcome.next.injEq] at h
    subst h
    split_ifs with hlast
    · refine .wexp k _ ⟨by decide, legalSeq_wexp _ ?_⟩
      revert k; decide
    · exact .wexp k _ ⟨by decide, by decide⟩
  | rinit => cases h; exact .rinit ⟨by decide, by decide⟩
  | round k =>
    cases h
    split_ifs
    · exact .round k ⟨by decide, legalSeq_round _⟩
    · exact .round k ⟨by decide, by decide⟩
  | accum => cases h; exact .accum

/-! ## What an instruction leaves unchanged (R29) -/

/-- Settles O34, from the list of what a host command can do. -/
theorem hostCommandFrame : Obligations.HostCommandFrame := by
  unfold Obligations.HostCommandFrame
  intro i s t hi h
  cases exec_commandEffect hi h with
  | answer => simp
  | clear => simp
  | store b => simp
  | short => simp [raiseInvalidLength]
  | accept => simp

/-- Settles O37, from the list of what a micro-operation can do. -/
theorem microOperationFrame : Obligations.MicroOperationFrame := by
  unfold Obligations.MicroOperationFrame
  intro i s t hi h
  cases exec_microEffect hi h with
  | idle => simp
  | hinit => simp
  | wload k v =>
    have other : ∀ j : BitVec 6, j.toNat ≠ k.toNat →
        wAt (s.w.set (k.setWidth 6).toNat v (k.setWidth 6).isLt) j = wAt s.w j := fun j hj =>
      wAt_set_other _ _ fun e => hj (by rw [e]; exact BitVec.toNat_setWidth_of_le (by omega))
    simpa using other
  | wexp k v =>
    have other : ∀ j, j ≠ k → wAt (s.w.set k.toNat v k.isLt) j = wAt s.w j :=
      fun j hj => wAt_set_other _ _ hj
    simpa using other
  | rinit => simp
  | round k => simp
  | accum => simp

/-! ## A read of a byte that holds no value, and the state after reset -/

/-- A block word is not read when one of its bytes holds no value (R38). -/
theorem memRead4_eq_none {m : Memory} {addr k : Nat} (hk : k < 4) (h : memRead m (addr + k) = none) :
    memRead4 m addr = none := by
  cases hv : memRead4 m addr with
  | none => rfl
  | some v =>
    obtain ⟨b0, b1, b2, b3, h0, h1, h2, h3, -⟩ := memRead4_eq_some.1 hv
    interval_cases k <;> simp_all

/-- Settles O11: the four-byte read of `WLOAD` fails with any one of its bytes. -/
theorem wloadOfUnwrittenByteStops : Obligations.WloadOfUnwrittenByteStops := by
  unfold Obligations.WloadOfUnwrittenByteStops
  intro t s k hk hnone
  have hread : memRead4 s.blk (wordAddr t) = none := memRead4_eq_none hk hnone
  simp [exec, execWload, hread]

/-- Settles O12: each field as `State.resetAt` sets it, and the empty buffer holds no byte. -/
theorem resetState : Obligations.ResetState :=
  ⟨rfl, rfl, rfl, rfl, rfl, rfl, memRead_nil⟩

/-! ## The invariants (R26, R106) -/

namespace CoreInv

variable {s : State}

/-- The invariants say nothing of `H`, `a..h`, `W`, the host's side or the number of resets. -/
theorem withData (hs : CoreInv s) (h : Vector Word 8) (work : Work) (w : Vector Word 64)
    (inbox : List Event) (outbox : List Response) (resets : Nat) :
    CoreInv { s with
      h := h, work := work, w := w, inbox := inbox, outbox := outbox, resets := resets } :=
  { hs with }

theorem withInbox (hs : CoreInv s) (inbox : List Event) : CoreInv { s with inbox := inbox } :=
  { hs with }

/-- The state after any reset meets the invariants (R31). -/
theorem resetAt (n : Nat) : CoreInv (State.resetAt n) where
  lenLe := by simp [State.resetAt]
  validLen := nofun
  busyFlags := nofun
  validIdle := nofun
  causeOfErr := nofun
  causeOfNoErr := fun _ => rfl
  busySeq := by simp only [State.resetAt]; decide
  errNoResult := nofun
  seqLegal := by simp only [State.resetAt]; decide
  blkWf := Memory.wf_nil
  blkHeld := nofun

/-- `SEQ` is `{IDLE, 0}` while no invocation runs (R26 (f), R106). -/
theorem seq_of_idle (hs : CoreInv s) (hidle : s.busy = false) : s.seq = 0 :=
  seq_eq_zero_of_idle _ hs.seqLegal (by_contra fun hph => by simp [hs.busySeq.2 hph] at hidle)

/-- No result is there while fewer than 64 bytes are supplied (R26 (b)). -/
theorem valid_of_short (hs : CoreInv s) (hlen : s.len.toNat < 64) : s.valid = false := by
  cases hv : s.valid with
  | false => rfl
  | true => simp [hs.validLen hv] at hlen

/-- `CLR` while idle keeps the invariants. -/
theorem clear (hs : CoreInv s) (hidle : s.busy = false) :
    CoreInv (clearReport (setValid false (setLen 0 s))) :=
  { hs with
    lenLe := by simp
    validLen := nofun
    busyFlags := by simp [hidle]
    validIdle := nofun
    causeOfErr := nofun
    causeOfNoErr := fun _ => rfl
    errNoResult := nofun
    blkHeld := by simp }

/-- Storing the next byte while idle keeps the invariants. -/
theorem store (hs : CoreInv s) (b : Byte) (hidle : s.busy = false) (hlen : s.len.toNat < 64) :
    CoreInv (setLen (s.len + 1) (writeBlk s.len.toNat b s)) :=
  have hadd : (s.len + 1).toNat = s.len.toNat + 1 := by bv_omega
  { hs with
    lenLe := by simp only [setLen_len]; omega
    validLen := by simp [hs.valid_of_short hlen]
    busyFlags := by simp [hidle]
    blkWf := memWrite_wf b hs.blkWf hlen
    blkHeld := fun j hj => by
      simp only [setLen_len, setLen_blk, writeBlk_blk] at hj ⊢
      by_cases hjl : j = s.len.toNat
      · simp [hjl]
      · rw [memRead_memWrite_other _ _ hjl]
        exact hs.blkHeld j (by omega) }

/-- The report of a short `START` keeps the invariants. -/
theorem report (hs : CoreInv s) (hidle : s.busy = false) (hlen : s.len.toNat < 64) :
    CoreInv (setReport s) :=
  { hs with
    busyFlags := by simp [hidle]
    causeOfErr := fun _ => rfl
    causeOfNoErr := nofun
    errNoResult := fun _ => hs.valid_of_short hlen }

/-- An accepted `START` keeps the invariants. -/
theorem accept (hs : CoreInv s) (hlen : 64 ≤ s.len.toNat) :
    CoreInv (setSeq phHinit 0 (setBusy true (clearReport (setValid false s)))) :=
  have hfull : s.len = 64 := by have := hs.lenLe; bv_omega
  { hs with
    validLen := nofun
    busyFlags := fun _ => ⟨hfull, rfl, rfl⟩
    validIdle := nofun
    causeOfErr := nofun
    causeOfNoErr := fun _ => rfl
    busySeq := by simp [phHinit, phIdle]
    errNoResult := nofun
    seqLegal := by simp only [setSeq_seq]; decide }

/-- A running invocation may go on to any running value of `SEQ`. -/
theorem advance (hs : CoreInv s) (hbusy : s.busy = true) {ph : BitVec 3} {t : BitVec 6}
    (hseq : RunningSeq ph t) : CoreInv (setSeq ph t s) :=
  { hs with
    busySeq := by simp [hbusy, hseq.notIdle]
    seqLegal := hseq.legal }

/-- The end of a running invocation keeps the invariants (R101). -/
theorem finish (hs : CoreInv s) (hbusy : s.busy = true) :
    CoreInv (setSeq phIdle 0 (setBusy false (setValid true s))) :=
  have ⟨hfull, _, hnoErr⟩ := hs.busyFlags hbusy
  { hs with
    validLen := fun _ => hfull
    busyFlags := nofun
    validIdle := fun _ => rfl
    busySeq := by simp
    errNoResult := by simp [hnoErr]
    seqLegal := by simp only [setSeq_seq]; decide }

/-- A micro-operation is performed only while an invocation runs (R26 (f)). -/
theorem busy_of_decodeMicro (hs : CoreInv s) {i : Instr} (hd : decodeMicro s.seq = .ok i)
    (hi : i ≠ .idle) : s.busy = true := by
  cases hb : s.busy with
  | true => rfl
  | false =>
    rw [hs.seq_of_idle hb] at hd
    cases hd
    exact absurd rfl hi

/-- Every host command keeps the invariants. -/
theorem commandEffect (hs : CoreInv s) {i : Instr} {t : State} (h : CommandEffect s i t) :
    CoreInv t := by
  cases h with
  | answer => exact hs.withData ..
  | clear hidle => exact (hs.clear hidle).withData ..
  | store b hidle hlen => exact (hs.store b hidle hlen).withData ..
  | short hidle hlen => exact (hs.report hidle hlen).withData ..
  | accept hidle hlen => exact (hs.accept hlen).withData ..

/-- The micro-operation that `SEQ` holds keeps the invariants. -/
theorem microEffect (hs : CoreInv s) {i : Instr} {t : State} (hd : decodeMicro s.seq = .ok i)
    (h : MicroEffect s i t) : CoreInv t := by
  have busy := hs.busy_of_decodeMicro hd
  cases h with
  | idle => exact hs
  | hinit hseq => exact (hs.advance (busy nofun) hseq).withData ..
  | wload k v hseq => exact (hs.advance (busy nofun) hseq).withData ..
  | wexp k v hseq => exact (hs.advance (busy nofun) hseq).withData ..
  | rinit hseq => exact (hs.advance (busy nofun) hseq).withData ..
  | round k hseq => exact (hs.advance (busy nofun) hseq).withData ..
  | accum => exact (hs.finish (busy nofun)).withData ..

/-- Every step keeps the invariants. -/
theorem step {t : State} (hs : CoreInv s) (h : step s = .next t) : CoreInv t := by
  rcases step_next h with ⟨i, u, hturn, hexec⟩ | ⟨cw, rest, r, -, -, rfl⟩ | ⟨rest, -, rfl⟩
  · obtain ⟨rfl, ⟨cw, rest, -, hd⟩ | ⟨-, hd⟩⟩ := takeTurn_run hturn
    · exact (hs.withInbox s.inbox.tail).commandEffect
        (exec_commandEffect (isCommand_of_decodeCommand hd) hexec)
    · exact (hs.withInbox s.inbox.tail).microEffect hd
        (exec_microEffect (decodeMicro_ok hd).1 hexec)
  · exact hs.withData ..
  · exact (resetAt _).withData ..

end CoreInv

/-- Settles O51, by the kinds of step and what each instruction can do. -/
theorem stepKeepsInvariants : Obligations.StepKeepsInvariants :=
  fun _ _ hs h => hs.step h

/-- Settles O50, as the first of all resets. -/
theorem resetMeetsInvariants : Obligations.ResetMeetsInvariants := CoreInv.resetAt 0

/-! ## Several cores side by side (R32, R50, R136) -/

/-- A step of core `k` that goes on is that core's own step, and writes its own place only. -/
theorem stepInstance_eq_next {n : Nat} {k : Fin n} {y z : System n} :
    stepInstance k y = .next z ↔ ∃ t, step y[k] = .next t ∧ z = y.set k t := by
  unfold stepInstance
  cases step y[k] <;> simp [eq_comm]

/-- Settles O60: writes of two different places of the system commute. -/
theorem instancesAreIndependent : Obligations.InstancesAreIndependent := by
  unfold Obligations.InstancesAreIndependent
  intro n j k y hjk
  have hne : (j : Nat) ≠ k := Fin.val_ne_of_ne hjk
  refine ⟨fun z hz => ?_, fun y1 y2 h1 h2 => ?_⟩
  · obtain ⟨t, hstep, rfl⟩ := stepInstance_eq_next.1 hz
    simpa [Vector.getElem_set_ne, hne.symm] using hstep
  · obtain ⟨t, hj, rfl⟩ := stepInstance_eq_next.1 h1
    obtain ⟨u, hk, rfl⟩ := stepInstance_eq_next.1 h2
    refine ⟨y.set k u, stepInstance_eq_next.2 ⟨u, ?_, rfl⟩, stepInstance_eq_next.2 ⟨t, ?_, ?_⟩⟩
    · simpa [Vector.getElem_set_ne, hne] using hk
    · simpa [Vector.getElem_set_ne, hne.symm] using hj
    · exact Vector.set_comm t u hne

end Sys2Proof.Machine

/-! # What the host can learn of the core's past (R33, R115) -/

namespace Sys2Proof.Machine

/-! ## Block words -/

theorem memRead4_congr {m1 m2 : Memory} {addr : Nat}
    (h : ∀ k < 4, memRead m1 (addr + k) = memRead m2 (addr + k)) :
    memRead4 m1 addr = memRead4 m2 addr := by
  have h0 : memRead m1 addr = memRead m2 addr := h 0 (by decide)
  unfold memRead4
  rw [h0, h 1 (by decide), h 2 (by decide), h 3 (by decide)]

/-- The bytes of a block word lie in the buffer (R42). -/
theorem wordAddr_add_lt (t : BitVec 4) {k : Nat} (hk : k < 4) : wordAddr t + k < 64 := by
  have ht := t.isLt
  unfold wordAddr
  omega

/-- While 64 bytes are supplied every block word can be read (R38, R42). -/
theorem CoreInv.exists_memRead4 {s : State} (hs : CoreInv s) (hlen : s.len = 64) (t : BitVec 4) :
    ∃ v, memRead4 s.blk (wordAddr t) = some v := by
  have held : ∀ k < 4, ∃ b, memRead s.blk (wordAddr t + k) = some b := fun k hk =>
    Option.isSome_iff_exists.1 (hs.blkHeld _ (by
      rw [hlen]; exact wordAddr_add_lt t hk))
  obtain ⟨b0, h0⟩ := held 0 (by decide)
  obtain ⟨b1, h1⟩ := held 1 (by decide)
  obtain ⟨b2, h2⟩ := held 2 (by decide)
  obtain ⟨b3, h3⟩ := held 3 (by decide)
  exact ⟨_, memRead4_eq_some.2 ⟨b0, b1, b2, b3, h0, h1, h2, h3, rfl⟩⟩

/-! ## One step, by what stands next -/

theorem step_of_command {s : State} {cw : BitVec 16} {rest : List Event} {i : Instr}
    (hin : s.inbox = .command cw :: rest) (hd : decodeCommand cw = .ok i) :
    step s = exec i { s with inbox := rest } := by
  simp [step, takeTurn_command hin, hostStep, hd]

theorem step_of_illegal_command {s : State} {cw : BitVec 16} {rest : List Event} {r : Reject}
    (hin : s.inbox = .command cw :: rest) (hd : decodeCommand cw = .error r) :
    step s = .next (refuse .eIllegal { s with inbox := rest }) := by
  simp [step, takeTurn_command hin, hostStep, hd]

theorem step_of_reset {s : State} {rest : List Event} (hin : s.inbox = .reset :: rest) :
    step s = .next (resetEvent { s with inbox := rest }) := by
  simp [step, takeTurn_reset hin]

theorem step_of_seqTurn {s : State} {rest : List Event} {i : Instr}
    (hin : s.inbox = .seqTurn :: rest) (hd : decodeMicro s.seq = .ok i) :
    step s = exec i { s with inbox := rest } := by
  simp [step, takeTurn_seqTurn hin, seqStep, hd]

theorem step_of_silent_host {s : State} {i : Instr} (hin : s.inbox = [])
    (hd : decodeMicro s.seq = .ok i) : step s = exec i s := by
  simp [step, takeTurn_nil hin, seqStep, hd]

/-! ## The simulation relation -/

/-- How many words of the schedule this invocation has computed before the micro-operation of `SEQ`
(R97, R98, R102). -/
def scheduleFilled (q : BitVec 9) : Nat :=
  if phField q = phWload ∨ phField q = phWexp then (tField q).toNat
  else if 4 ≤ (phField q).toNat then 64 else 0

@[simp] theorem scheduleFilled_wload (t : BitVec 6) : scheduleFilled (seqOf phWload t) = t.toNat := by
  simp [scheduleFilled]

@[simp] theorem scheduleFilled_wexp (t : BitVec 6) : scheduleFilled (seqOf phWexp t) = t.toNat := by
  simp [scheduleFilled]

@[simp] theorem scheduleFilled_rinit : scheduleFilled (seqOf phRinit 0) = 64 := by decide

@[simp] theorem scheduleFilled_round (t : BitVec 6) : scheduleFilled (seqOf phRound t) = 64 := by
  simp [scheduleFilled, phRound, phWload, phWexp]

/-- The two states answer the host alike from now on: they agree in the control fields and the events
to come, in the bytes supplied, and in that part of `H`, `W` and `a..h` which this invocation has
written. -/
structure SameView (s1 s2 : State) : Prop where
  inbox : s1.inbox = s2.inbox
  len : s1.len = s2.len
  busy : s1.busy = s2.busy
  valid : s1.valid = s2.valid
  err : s1.err = s2.err
  ecause : s1.ecause = s2.ecause
  seq : s1.seq = s2.seq
  blk : ∀ j < s1.len.toNat, memRead s1.blk j = memRead s2.blk j
  result : s1.valid = true → s1.h = s2.h
  hash : 2 ≤ (phField s1.seq).toNat → s1.h = s2.h
  schedule : ∀ j : BitVec 6, j.toNat < scheduleFilled s1.seq → wAt s1.w j = wAt s2.w j
  working : 5 ≤ (phField s1.seq).toNat → s1.work = s2.work

namespace SameView

variable {s1 s2 : State}

/-- The responses given so far and the number of resets do not matter; the events to come may be
replaced. -/
theorem withHost (h : SameView s1 s2) (inbox : List Event) (o1 o2 : List Response) (r1 r2 : Nat) :
    SameView { s1 with inbox := inbox, outbox := o1, resets := r1 }
      { s2 with inbox := inbox, outbox := o2, resets := r2 } :=
  { h with inbox := rfl }

/-- Two idle states without a result need to agree in the control fields and the bytes only. -/
theorem of_idle (inbox : s1.inbox = s2.inbox) (len : s1.len = s2.len) (busy : s1.busy = s2.busy)
    (valid1 : s1.valid = false) (valid2 : s2.valid = false) (err : s1.err = s2.err)
    (ecause : s1.ecause = s2.ecause) (seq1 : s1.seq = 0) (seq2 : s2.seq = 0)
    (blk : ∀ j < s1.len.toNat, memRead s1.blk j = memRead s2.blk j) : SameView s1 s2 :=
  have hph : phField s1.seq = 0 := by rw [seq1]; rfl
  { inbox, len, busy, err, ecause, blk
    valid := valid1.trans valid2.symm
    seq := seq1.trans seq2.symm
    result := by simp [valid1]
    hash := by simp [hph]
    schedule := by simp [scheduleFilled, hph, phWload, phWexp]
    working := by simp [hph] }

/-- Any two cores look alike right after a reset (R31, R140). -/
theorem resetEvent (inbox : s1.inbox = s2.inbox) : SameView (resetEvent s1) (resetEvent s2) :=
  of_idle inbox rfl rfl rfl rfl rfl rfl rfl rfl nofun

/-- Any two idle cores look alike right after `CLR` (R86). -/
theorem clear (hinv1 : CoreInv s1) (hinv2 : CoreInv s2) (hidle1 : s1.busy = false)
    (hidle2 : s2.busy = false) (inbox : s1.inbox = s2.inbox) :
    SameView (clearReport (setValid false (setLen 0 s1)))
      (clearReport (setValid false (setLen 0 s2))) :=
  of_idle inbox rfl (hidle1.trans hidle2.symm) rfl rfl rfl rfl
    (hinv1.seq_of_idle hidle1) (hinv2.seq_of_idle hidle2) (by simp)

theorem status_eq (h : SameView s1 s2) : status s1 = status s2 := by
  simp [status, h.len, h.busy, h.valid, h.err, h.ecause]

/-! ### Each update keeps the relation -/

theorem clearAgain (h : SameView s1 s2) :
    SameView (clearReport (setValid false (setLen 0 s1)))
      (clearReport (setValid false (setLen 0 s2))) :=
  { h with
    len := rfl
    valid := rfl
    err := rfl
    ecause := rfl
    blk := by simp
    result := nofun }

theorem store (h : SameView s1 s2) (b : Byte) (hlen : s1.len.toNat < 64) :
    SameView (setLen (s1.len + 1) (writeBlk s1.len.toNat b s1))
      (setLen (s2.len + 1) (writeBlk s2.len.toNat b s2)) :=
  have hadd : (s1.len + 1).toNat = s1.len.toNat + 1 := by bv_omega
  { h with
    len := by simp [h.len]
    blk := fun j hj => by
      simp only [setLen_len, setLen_blk, writeBlk_blk, ← h.len] at hj ⊢
      by_cases hjl : j = s1.len.toNat
      · simp [hjl]
      · rw [memRead_memWrite_other _ _ hjl, memRead_memWrite_other _ _ hjl]
        exact h.blk j (by omega) }

theorem report (h : SameView s1 s2) : SameView (setReport s1) (setReport s2) :=
  { h with
    err := rfl
    ecause := rfl }

theorem accept (h : SameView s1 s2) :
    SameView (setSeq phHinit 0 (setBusy true (clearReport (setValid false s1))))
      (setSeq phHinit 0 (setBusy true (clearReport (setValid false s2)))) :=
  { h with
    busy := rfl
    valid := rfl
    err := rfl
    ecause := rfl
    seq := rfl
    result := nofun
    hash := by simp [phHinit]
    schedule := by simp [scheduleFilled, phHinit, phWload, phWexp]
    working := by simp [phHinit] }

theorem initialHash (h : SameView s1 s2) :
    SameView (setSeq phWload 0 (setH h0Rom s1)) (setSeq phWload 0 (setH h0Rom s2)) :=
  { h with
    seq := rfl
    result := fun _ => rfl
    hash := fun _ => rfl
    schedule := by simp [scheduleFilled]
    working := by simp [phWload] }

/-- The next schedule word, with the sequencer going on in `WLOAD`, `WEXP` or `RINIT`. -/
theorem scheduleWord (h : SameView s1 s2) (hph : 2 ≤ (phField s1.seq).toNat) {t : BitVec 6}
    (hfilled : scheduleFilled s1.seq = t.toNat) (v : Word) {ph : BitVec 3} {t' : BitVec 6}
    (hph' : ph.toNat ≤ 4) (hnext : scheduleFilled (seqOf ph t') = t.toNat + 1) :
    SameView (setSeq ph t' (writeW t v s1)) (setSeq ph t' (writeW t v s2)) :=
  { h with
    seq := rfl
    hash := fun _ => h.hash hph
    schedule := fun j hj => by
      simp only [setSeq_seq, hnext, setSeq_w, writeW_w] at hj ⊢
      by_cases hjt : j = t
      · simp [hjt]
      · have hne : j.toNat ≠ t.toNat := fun e => hjt (BitVec.eq_of_toNat_eq e)
        rw [wAt_set_other _ _ hjt, wAt_set_other _ _ hjt]
        exact h.schedule j (by omega)
    working := fun hw => by simp only [setSeq_seq, phField_seqOf] at hw; omega }

/-- New working registers once the schedule is complete, with the sequencer going on in `ROUND` or
`ACCUM`. -/
theorem workingRegisters (h : SameView s1 s2) (hph : 4 ≤ (phField s1.seq).toNat) (r : Work)
    (ph : BitVec 3) (t : BitVec 6) :
    SameView (setSeq ph t (setWork r s1)) (setSeq ph t (setWork r s2)) :=
  { h with
    seq := rfl
    hash := fun _ => h.hash (by omega)
    schedule := fun j _ => h.schedule j (by
      have hload : phField s1.seq ≠ phWload := fun e => by simp [e, phWload] at hph
      have hexp : phField s1.seq ≠ phWexp := fun e => by simp [e, phWexp] at hph
      have hj := j.isLt
      simpa [scheduleFilled, hload, hexp, hph] using hj)
    working := fun _ => rfl }

theorem finish (h : SameView s1 s2) (hph : phField s1.seq = phAccum) :
    SameView
      (setSeq phIdle 0 (setBusy false (setValid true (setH (accumulate s1.h s1.work) s1))))
      (setSeq phIdle 0 (setBusy false (setValid true (setH (accumulate s2.h s2.work) s2)))) :=
  have hsum : accumulate s1.h s1.work = accumulate s2.h s2.work := by
    rw [h.hash (by simp [hph, phAccum]), h.working (by simp [hph, phAccum])]
  { h with
    busy := rfl
    valid := rfl
    seq := rfl
    result := fun _ => hsum
    hash := fun _ => hsum
    schedule := by simp [scheduleFilled, phIdle, phWload, phWexp]
    working := by simp [phIdle] }

end SameView

/-! ## Steps in lockstep -/

/-- Both answers go on, to states that look alike, with the same new responses. -/
def Lockstep (s1 s2 : State) (r1 r2 : Result) : Prop :=
  ∃ t1 t2 new, r1 = .next t1 ∧ r2 = .next t2 ∧ SameView t1 t2 ∧
    t1.outbox = new ++ s1.outbox ∧ t2.outbox = new ++ s2.outbox

section
variable {s1 s2 : State}

theorem lockstep_silent {u1 u2 : State} (h : SameView u1 u2) (ho1 : u1.outbox = s1.outbox)
    (ho2 : u2.outbox = s2.outbox) : Lockstep s1 s2 (.next u1) (.next u2) :=
  ⟨u1, u2, [], rfl, rfl, h, ho1, ho2⟩

theorem lockstep_respond {u1 u2 : State} (h : SameView u1 u2) (c : RespCode) (d : Word)
    (ho1 : u1.outbox = s1.outbox) (ho2 : u2.outbox = s2.outbox) :
    Lockstep s1 s2 (.next (respond c d u1)) (.next (respond c d u2)) :=
  ⟨_, _, [⟨c, d⟩], rfl, rfl, { h with }, by simp [ho1], by simp [ho2]⟩

theorem lockstep_unlessBusy {go1 go2 : State} (h : SameView s1 s2)
    (hgo : s1.busy = false → Lockstep s1 s2 (.next go1) (.next go2)) :
    Lockstep s1 s2 (unlessBusy s1 go1) (unlessBusy s2 go2) := by
  cases hb : s1.busy with
  | true =>
    rw [unlessBusy_of_busy _ hb, unlessBusy_of_busy _ (h.busy ▸ hb)]
    exact lockstep_respond h _ _ rfl rfl
  | false =>
    rw [unlessBusy_of_idle _ hb, unlessBusy_of_idle _ (h.busy ▸ hb)]
    exact hgo hb

theorem lockstep_readResult (h : SameView s1 s2) {v1 v2 : Word} (hv : s1.h = s2.h → v1 = v2) :
    Lockstep s1 s2 (.next (readResult v1 s1)) (.next (readResult v2 s2)) := by
  cases hvalid : s1.valid with
  | true =>
    rw [readResult_of_valid _ hvalid, readResult_of_valid _ (h.valid ▸ hvalid),
      hv (h.result hvalid)]
    exact lockstep_respond h _ _ rfl rfl
  | false =>
    rw [readResult_of_not_valid _ hvalid, readResult_of_not_valid _ (h.valid ▸ hvalid)]
    exact lockstep_respond h _ _ rfl rfl

/-- A host command gets the same answer from two states that look alike, and they go on looking
alike. -/
theorem exec_command_lockstep (h : SameView s1 s2) {i : Instr} (hi : isCommand i = true) :
    Lockstep s1 s2 (exec i s1) (exec i s2) := by
  cases i with
  | clr => exact lockstep_unlessBusy h fun _ => lockstep_respond h.clearAgain _ _ rfl rfl
  | push b =>
    refine lockstep_unlessBusy h fun _ => ?_
    by_cases hlen : s1.len.toNat < 64
    · rw [if_pos hlen, if_pos (h.len ▸ hlen)]
      exact lockstep_respond (h.store b hlen) _ _ rfl rfl
    · rw [if_neg hlen, if_neg (h.len ▸ hlen)]
      exact lockstep_respond h _ _ rfl rfl
  | start =>
    refine lockstep_unlessBusy h fun _ => ?_
    have hshort : tooShort s2 = tooShort s1 := by simp [tooShort, h.len]
    rw [hshort]
    split_ifs
    · rw [raiseInvalidLength, raiseInvalidLength, h.len]
      exact lockstep_respond h.report _ _ rfl rfl
    · exact lockstep_respond h.accept _ _ rfl rfl
  | rdw k => exact lockstep_unlessBusy h fun _ => lockstep_readResult h fun e => by rw [e]
  | rdb j => exact lockstep_unlessBusy h fun _ => lockstep_readResult h fun e => by rw [e]
  | stat =>
    simp only [exec, execStat, h.status_eq]
    exact lockstep_respond h _ _ rfl rfl
  | idle | hinit | wload _ | wexp _ | rinit | round _ | accum => cases hi

/-- `WLOAD` of the word that `SEQ` names. -/
theorem execWload_lockstep (hinv : CoreInv s1) (hbusy : s1.busy = true) (h : SameView s1 s2)
    {k : BitVec 4} (hseq : s1.seq = seqOf phWload (k.setWidth 6)) :
    Lockstep s1 s2 (execWload k s1) (execWload k s2) := by
  have hlen : s1.len = 64 := (hinv.busyFlags hbusy).1
  obtain ⟨v, hv1⟩ := hinv.exists_memRead4 hlen k
  have hv2 : memRead4 s2.blk (wordAddr k) = some v := by
    rw [← hv1]
    refine memRead4_congr fun m hm => (h.blk _ ?_).symm
    rw [hlen]
    exact wordAddr_add_lt k hm
  have hph : 2 ≤ (phField s1.seq).toNat := by simp [hseq, phWload]
  have hfilled : scheduleFilled s1.seq = (k.setWidth 6).toNat := by simp [hseq]
  rw [execWload_of_read hv1, execWload_of_read hv2]
  split_ifs with hk
  · refine lockstep_silent (h.scheduleWord hph hfilled v (by decide) ?_) rfl rfl
    rw [scheduleFilled_wload]
    bv_omega
  · refine lockstep_silent (h.scheduleWord hph hfilled v (by decide) ?_) rfl rfl
    rw [scheduleFilled_wexp]
    bv_omega

/-- `WEXP` of the word that `SEQ` names: the four words it reads have been computed. -/
theorem execWexp_lockstep (h : SameView s1 s2) {t : BitVec 6} (ht : 16 ≤ t.toNat)
    (hseq : s1.seq = seqOf phWexp t) : Lockstep s1 s2 (execWexp t s1) (execWexp t s2) := by
  have hph : 2 ≤ (phField s1.seq).toNat := by simp [hseq, phWexp]
  have hfilled : scheduleFilled s1.seq = t.toNat := by simp [hseq]
  have hread : ∀ j : BitVec 6, j.toNat < t.toNat → wAt s1.w j = wAt s2.w j := fun j hj =>
    h.schedule j (hfilled ▸ hj)
  simp only [execWexp, if_pos ht]
  rw [hread (t - 16) (by bv_omega), hread (t - 15) (by bv_omega), hread (t - 7) (by bv_omega),
    hread (t - 2) (by bv_omega)]
  split_ifs with hlast
  · refine lockstep_silent (h.scheduleWord hph hfilled _ (by decide) ?_) rfl rfl
    rw [scheduleFilled_wexp]
    bv_omega
  · refine lockstep_silent (h.scheduleWord hph hfilled _ (by decide) ?_) rfl rfl
    rw [scheduleFilled_rinit]
    omega

/-- `ROUND` of the index that `SEQ` names. -/
theorem execRound_lockstep (h : SameView s1 s2) {t : BitVec 6} (hseq : s1.seq = seqOf phRound t) :
    Lockstep s1 s2 (execRound t s1) (execRound t s2) := by
  have hph : phField s1.seq = phRound := by simp [hseq]
  have hwork : s1.work = s2.work := h.working (by simp [hph, phRound])
  have hw : wAt s1.w t = wAt s2.w t := h.schedule t (by simpa [hseq] using t.isLt)
  simp only [execRound, hwork, hw]
  split_ifs
  · exact lockstep_silent (h.workingRegisters (by simp [hph, phRound]) ..) rfl rfl
  · exact lockstep_silent (h.workingRegisters (by simp [hph, phRound]) ..) rfl rfl

/-- The micro-operation that `SEQ` holds keeps two states alike, and the host is told nothing. -/
theorem exec_micro_lockstep (hinv : CoreInv s1) (h : SameView s1 s2) {i : Instr}
    (hd : decodeMicro s1.seq = .ok i) : Lockstep s1 s2 (exec i s1) (exec i s2) := by
  obtain ⟨hi, hwf, henc⟩ := decodeMicro_ok hd
  have busy := hinv.busy_of_decodeMicro hd
  cases i with
  | clr | push _ | start | rdw _ | rdb _ | stat => cases hi
  | idle => exact lockstep_silent h rfl rfl
  | hinit => exact lockstep_silent h.initialHash rfl rfl
  | wload k =>
    have hseq : seqOf phWload (0#2 ++ k) = s1.seq := Encoded.micro.inj henc
    have hindex : ∀ k : BitVec 4, 0#2 ++ k = k.setWidth 6 := by decide
    exact execWload_lockstep hinv (busy nofun) h (hindex k ▸ hseq.symm)
  | wexp t => exact execWexp_lockstep h (of_decide_eq_true hwf) (Encoded.micro.inj henc).symm
  | rinit =>
    have hseq : seqOf phRinit 0 = s1.seq := Encoded.micro.inj henc
    have hph : phField s1.seq = phRinit := by simp [← hseq]
    have hh : s1.h = s2.h := h.hash (by simp [hph, phRinit])
    simp only [exec, execRinit, hh]
    exact lockstep_silent (h.workingRegisters (by simp [hph, phRinit]) ..) rfl rfl
  | round t => exact execRound_lockstep h (Encoded.micro.inj henc).symm
  | accum =>
    have hseq : seqOf phAccum 0 = s1.seq := Encoded.micro.inj henc
    exact lockstep_silent (h.finish (by simp [← hseq])) rfl rfl

/-- One step keeps two states alike, and the host is told the same. -/
theorem step_lockstep (hinv : CoreInv s1) (h : SameView s1 s2) :
    Lockstep s1 s2 (step s1) (step s2) := by
  obtain ⟨i, hd⟩ := decodeMicro_of_legalSeq hinv.seqLegal
  have hd2 : decodeMicro s2.seq = .ok i := h.seq ▸ hd
  cases hin : s1.inbox with
  | nil =>
    rw [step_of_silent_host hin hd, step_of_silent_host (h.inbox ▸ hin) hd2]
    exact exec_micro_lockstep hinv h hd
  | cons e rest =>
    have hin2 : s2.inbox = e :: rest := h.inbox ▸ hin
    have hrest : SameView { s1 with inbox := rest } { s2 with inbox := rest } := h.withHost ..
    cases e with
    | seqTurn =>
      rw [step_of_seqTurn hin hd, step_of_seqTurn hin2 hd2]
      exact exec_micro_lockstep (hinv.withInbox rest) hrest hd
    | reset =>
      rw [step_of_reset hin, step_of_reset hin2]
      exact lockstep_silent (.resetEvent rfl) rfl rfl
    | command cw =>
      cases hc : decodeCommand cw with
      | ok j =>
        rw [step_of_command hin hc, step_of_command hin2 hc]
        exact exec_command_lockstep hrest (isCommand_of_decodeCommand hc)
      | error r =>
        rw [step_of_illegal_command hin hc, step_of_illegal_command hin2 hc]
        exact lockstep_respond hrest _ _ rfl rfl

/-- A run is in lockstep when its first step is and the rest of it is. -/
theorem Lockstep.run_succ {n : Nat} (h : Lockstep s1 s2 (step s1) (step s2))
    (hrest : ∀ t1 t2, step s1 = .next t1 → SameView t1 t2 →
      Lockstep t1 t2 (core.run n t1) (core.run n t2)) :
    Lockstep s1 s2 (core.run (n + 1) s1) (core.run (n + 1) s2) := by
  obtain ⟨t1, t2, new, h1, h2, ht, ho1, ho2⟩ := h
  obtain ⟨u1, u2, more, hr1, hr2, hu, hp1, hp2⟩ := hrest t1 t2 h1 ht
  have run1 : core.run (n + 1) s1 = core.run n t1 := by
    simp [Host.Core.run, show core.step s1 = .next t1 from h1]
  have run2 : core.run (n + 1) s2 = core.run n t2 := by
    simp [Host.Core.run, show core.step s2 = .next t2 from h2]
  exact ⟨u1, u2, more ++ new, run1.trans hr1, run2.trans hr2, hu, by simp [hp1, ho1],
    by simp [hp2, ho2]⟩

/-- Two states that look alike stay so along every run, and the host is told the same. -/
theorem run_lockstep (n : Nat) (hinv : CoreInv s1) (h : SameView s1 s2) :
    Lockstep s1 s2 (core.run n s1) (core.run n s2) := by
  induction n generalizing s1 s2 with
  | zero => exact lockstep_silent h rfl rfl
  | succ n ih => exact (step_lockstep hinv h).run_succ fun _ _ h1 ht => ih (hinv.step h1) ht

/-- `CLR` makes any two idle cores look alike. -/
theorem step_clr_lockstep {events : List Event} (hinv1 : CoreInv s1) (hinv2 : CoreInv s2)
    (hidle1 : s1.busy = false) (hidle2 : s2.busy = false)
    (hin1 : s1.inbox = .command 0x1000 :: events) (hin2 : s2.inbox = .command 0x1000 :: events) :
    Lockstep s1 s2 (step s1) (step s2) := by
  have hd : decodeCommand 0x1000 = .ok .clr := rfl
  have hclear : ∀ s : State, s.busy = false →
      exec .clr s = .next (respond .ok 0 (clearReport (setValid false (setLen 0 s)))) :=
    fun _ hidle => unlessBusy_of_idle _ hidle
  rw [step_of_command hin1 hd, step_of_command hin2 hd, hclear { s1 with inbox := events } hidle1,
    hclear { s2 with inbox := events } hidle2]
  exact lockstep_respond (.clear (hinv1.withInbox events) (hinv2.withInbox events) hidle1
    hidle2 rfl) _ _ rfl rfl

end

/-- Settles O56: `CLR` makes the two cores look alike, and every later step keeps that. -/
theorem noHistoryDependence : Obligations.NoHistoryDependence := by
  unfold Obligations.NoHistoryDependence
  intro s1 s2 events hinv1 hinv2 hidle1 hidle2 hin1 hin2
  have hfirst := step_clr_lockstep hinv1 hinv2 hidle1 hidle2 hin1 hin2
  obtain ⟨t1, t2, responses, h1, h2, -, ho1, ho2⟩ :=
    hfirst.run_succ fun _ _ hstep ht => run_lockstep events.length (hinv1.step hstep) ht
  exact ⟨t1, t2, responses, h1, h2, ho1, ho2⟩

end Sys2Proof.Machine

/-! # The block buffer, and an invocation that commands cannot disturb (R35, R48, R112) -/

namespace Sys2Proof.Machine

/-! ## Reads, and the buffer's form -/

/-- Settles O35: of what a host command can do, the three reads can only answer. -/
theorem readCommandFrame : Obligations.ReadCommandFrame := by
  unfold Obligations.ReadCommandFrame
  intro i s t hread h
  have honly : ∃ c d, t = respond c d s := by
    rcases hread with rfl | ⟨k, rfl⟩ | ⟨j, rfl⟩ <;>
      (cases exec_commandEffect rfl h with
      | answer _ c d => exact ⟨c, d, rfl⟩)
  obtain ⟨c, d, rfl⟩ := honly
  exact ⟨⟨c, d⟩, rfl⟩

/-- A host command writes at most the byte at `LEN`, and only below 64 (R39, R87). -/
theorem CommandEffect.blkWf {s t : State} {i : Instr} (h : CommandEffect s i t)
    (hs : Memory.Wf s.blk) : Memory.Wf t.blk := by
  cases h with
  | store b _ hlen => exact memWrite_wf b hs hlen
  | answer | clear | short | accept => exact hs

/-- No micro-operation writes the buffer or the length, or takes an event (R29). -/
theorem MicroEffect.frame {s t : State} {i : Instr} (h : MicroEffect s i t) :
    t.blk = s.blk ∧ t.len = s.len ∧ t.inbox = s.inbox := by
  cases h <;> exact ⟨rfl, rfl, rfl⟩

/-- Settles O52, by the kinds of step: only a command writes the buffer, and reset empties it. -/
theorem stepKeepsBufferForm : Obligations.StepKeepsBufferForm := by
  unfold Obligations.StepKeepsBufferForm
  intro s t hs h
  rcases step_next h with ⟨i, u, hturn, hexec⟩ | ⟨cw, rest, r, -, -, rfl⟩ | ⟨rest, -, rfl⟩
  · obtain ⟨rfl, ⟨cw, rest, -, hd⟩ | ⟨-, hd⟩⟩ := takeTurn_run hturn
    · exact (exec_commandEffect (isCommand_of_decodeCommand hd) hexec).blkWf hs
    · obtain ⟨hblk, -, -⟩ := (exec_microEffect (decodeMicro_ok hd).1 hexec).frame
      exact hblk ▸ hs
  · exact hs
  · exact Memory.wf_nil

/-! ## Commands while an invocation runs (R48, R85) -/

/-- While `BUSY = 1` every host command only answers. -/
theorem exec_command_of_busy {s : State} {i : Instr} (hi : isCommand i = true)
    (hbusy : s.busy = true) : ∃ c d, exec i s = .next (respond c d s) := by
  cases i with
  | clr | push _ | start | rdw _ | rdb _ => exact ⟨.eBusy, 0, unlessBusy_of_busy _ hbusy⟩
  | stat => exact ⟨.ok, status s, rfl⟩
  | idle | hinit | wload _ | wexp _ | rinit | round _ | accum => cases hi

/-- While `BUSY = 1` every command word, legal or not, only gets an answer. -/
theorem step_command_of_busy {s : State} {cw : BitVec 16} {rest : List Event}
    (hin : s.inbox = .command cw :: rest) (hbusy : s.busy = true) :
    ∃ c d, step s = .next (respond c d { s with inbox := rest }) := by
  cases hd : decodeCommand cw with
  | error r => exact ⟨.eIllegal, 0, step_of_illegal_command hin hd⟩
  | ok i =>
    rw [step_of_command hin hd]
    exact exec_command_of_busy (isCommand_of_decodeCommand hd) hbusy

/-! ## The schedule as a function (R109) -/

theorem scheduleRev_succ (B : Nat → Byte) (t : Nat) :
    scheduleRev B (t + 1) = schedule B t :: scheduleRev B t := rfl

/-- Word `k` of the reversed schedule is the `k`-th before its end. -/
theorem scheduleRev_getD (B : Nat → Byte) {n k : Nat} (hk : k < n) :
    (scheduleRev B n).getD k 0 = schedule B (n - 1 - k) := by
  induction n generalizing k with
  | zero => omega
  | succ n ih =>
    rw [scheduleRev_succ]
    cases k with
    | zero => rfl
    | succ k =>
      rw [List.getD_cons_succ, ih (by omega)]
      congr 1
      omega

theorem schedule_of_lt (B : Nat → Byte) {t : Nat} (ht : t < 16) :
    schedule B t = be32 (B (4 * t)) (B (4 * t + 1)) (B (4 * t + 2)) (B (4 * t + 3)) := by
  simp [schedule, scheduleRev, ht]

theorem schedule_of_ge (B : Nat → Byte) {t : Nat} (ht : 16 ≤ t) :
    schedule B t = wnext (schedule B (t - 16)) (schedule B (t - 15)) (schedule B (t - 7))
      (schedule B (t - 2)) := by
  have hunfold : schedule B t = wnext ((scheduleRev B t).getD 15 0) ((scheduleRev B t).getD 14 0)
      ((scheduleRev B t).getD 6 0) ((scheduleRev B t).getD 1 0) := by
    simp [schedule, scheduleRev, Nat.not_lt.2 ht]
  rw [hunfold, scheduleRev_getD B (by omega), scheduleRev_getD B (by omega),
    scheduleRev_getD B (by omega), scheduleRev_getD B (by omega)]
  rfl

/-- A block word read from the buffer is that word of the schedule (R36, R97). -/
theorem HoldsBlock.memRead4_eq {s : State} {B : Nat → Byte} (h : HoldsBlock s B) (t : BitVec 4) :
    memRead4 s.blk (wordAddr t) = some (schedule B t.toNat) :=
  have held : ∀ k < 4, memRead s.blk (wordAddr t + k) = some (B (wordAddr t + k)) :=
    fun _ hk => h _ (wordAddr_add_lt t hk)
  memRead4_eq_some.2 ⟨_, _, _, _, held 0 (by decide), held 1 (by decide), held 2 (by decide),
    held 3 (by decide), schedule_of_lt B t.isLt⟩

/-! ## Where `SEQ` stands, turn by turn (R102, R104) -/

/-- How many sequencer turns of an invocation come before the one that performs the micro-operation;
131 for what is no micro-operation of an invocation. -/
def turnOf : Instr → Nat
  | .hinit => 0
  | .wload t => t.toNat + 1
  | .wexp t => t.toNat + 1
  | .rinit => 65
  | .round t => 66 + t.toNat
  | .accum => 130
  | .idle | .clr | .push _ | .start | .rdw _ | .rdb _ | .stat => 131

/-- Each of the 131 turns finds its micro-operation in `SEQ`. -/
theorem decodeMicro_seqAfter {n : Nat} (hn : n ≤ 130) :
    ∃ i, decodeMicro (seqAfter n) = .ok i ∧ turnOf i = n := by
  have all : ∀ n < 131, ((decodeMicro (seqAfter n)).map turnOf).toOption = some n := by decide
  have hturn := all n (by omega)
  cases hd : decodeMicro (seqAfter n) with
  | error e => simp [hd, Except.map, Except.toOption] at hturn
  | ok i => exact ⟨i, rfl, by simpa [hd, Except.map, Except.toOption] using hturn⟩

/-- `WLOAD` moves `SEQ` to the next turn's value. -/
theorem exec_wload_seqAfter {s : State} {t : BitVec 4} {v : Word}
    (h : memRead4 s.blk (wordAddr t) = some v) :
    exec (.wload t) s =
      .next { writeW (t.setWidth 6) v s with seq := seqAfter (turnOf (.wload t) + 1) } := by
  have hseq : ∀ t : BitVec 4, (if t.toNat < 15 then seqOf phWload (t.setWidth 6 + 1)
      else seqOf phWexp 16) = seqAfter (turnOf (.wload t) + 1) := by decide
  rw [← hseq]
  refine (execWload_of_read h).trans ?_
  split_ifs <;> rfl

/-- `WEXP` moves `SEQ` to the next turn's value. -/
theorem exec_wexp_seqAfter (s : State) {t : BitVec 6} (ht : 16 ≤ t.toNat) :
    exec (.wexp t) s =
      .next { writeW t (wnext (wAt s.w (t - 16)) (wAt s.w (t - 15)) (wAt s.w (t - 7))
          (wAt s.w (t - 2))) s with seq := seqAfter (turnOf (.wexp t) + 1) } := by
  have hseq : ∀ t : BitVec 6, 16 ≤ t.toNat → (if t.toNat < 63 then seqOf phWexp (t + 1)
      else seqOf phRinit 0) = seqAfter (turnOf (.wexp t) + 1) := by decide
  rw [← hseq t ht]
  simp only [exec, execWexp, if_pos ht]
  split_ifs <;> rfl

/-- `ROUND` moves `SEQ` to the next turn's value. -/
theorem exec_round_seqAfter (s : State) (t : BitVec 6) :
    exec (.round t) s =
      .next { setWork (compressRound s.work (kAt t) (wAt s.w t)) s with
        seq := seqAfter (turnOf (.round t) + 1) } := by
  have hseq : ∀ t : BitVec 6, (if t.toNat < 63 then seqOf phRound (t + 1)
      else seqOf phAccum 0) = seqAfter (turnOf (.round t) + 1) := by decide
  rw [← hseq]
  simp only [exec, execRound]
  split_ifs <;> rfl

/-! ## The invocation, turn by turn (R112) -/

/-- Where the invocation on the block `B` that started in `s0` stands after `n` sequencer turns, `n` in
0..130: the words computed so far are those of the functions of R109 and R110. The host's side is not
mentioned. -/
structure AfterTurns (s0 : State) (B : Nat → Byte) (n : Nat) (s : State) : Prop where
  busy : s.busy = true
  seq : s.seq = seqAfter n
  block : HoldsBlock s B
  blk : s.blk = s0.blk
  len : s.len = s0.len
  hash : 1 ≤ n → s.h = h0Rom
  words : ∀ j : BitVec 6, j.toNat + 1 < n → wAt s.w j = schedule B j.toNat
  working : ∀ k, n = 66 + k → s.work = roundsUpTo (workOf h0Rom) (schedule B) k

theorem Started.afterTurns {s : State} {B : Nat → Byte} (h : Started s B) : AfterTurns s B 0 s where
  busy := h.busy
  seq := h.seq
  block := h.block
  blk := rfl
  len := rfl
  hash := by omega
  words := by omega
  working := by omega

namespace AfterTurns

variable {s0 s : State} {B : Nat → Byte} {n : Nat}

theorem withHost (h : AfterTurns s0 B n s) (inbox : List Event) (outbox : List Response) :
    AfterTurns s0 B n { s with inbox := inbox, outbox := outbox } :=
  { h with }

theorem hinit (h : AfterTurns s0 B 0 s) :
    ∃ t, exec .hinit s = .next t ∧ AfterTurns s0 B 1 t :=
  ⟨_, rfl, { h with
    seq := rfl
    hash := fun _ => rfl
    words := by omega
    working := by omega }⟩

/-- The next word of the schedule. -/
theorem word (t : BitVec 6) (h : AfterTurns s0 B (t.toNat + 1) s) :
    AfterTurns s0 B (t.toNat + 2)
      { writeW t (schedule B t.toNat) s with seq := seqAfter (t.toNat + 2) } :=
  { h with
    seq := rfl
    hash := fun _ => h.hash (by omega)
    words := fun j hj => by
      by_cases hjt : j = t
      · subst hjt; exact wAt_set_same ..
      · have hne : j.toNat ≠ t.toNat := fun e => hjt (BitVec.eq_of_toNat_eq e)
        exact (wAt_set_other _ _ hjt).trans (h.words j (by omega))
    working := by omega }

theorem wload {t : BitVec 4} (h : AfterTurns s0 B (t.toNat + 1) s) :
    ∃ u, exec (.wload t) s = .next u ∧ AfterTurns s0 B (t.toNat + 2) u := by
  have ht : (t.setWidth 6).toNat = t.toNat := BitVec.toNat_setWidth_of_le (by omega)
  refine ⟨_, exec_wload_seqAfter (h.block.memRead4_eq t), ?_⟩
  have hword := word (t.setWidth 6) (ht.symm ▸ h)
  rwa [ht] at hword

theorem wexp {t : BitVec 6} (ht : 16 ≤ t.toNat) (h : AfterTurns s0 B (t.toNat + 1) s) :
    ∃ u, exec (.wexp t) s = .next u ∧ AfterTurns s0 B (t.toNat + 2) u := by
  refine ⟨_, exec_wexp_seqAfter s ht, ?_⟩
  have back : ∀ j : BitVec 6, 1 ≤ j.toNat → j.toNat ≤ 16 →
      wAt s.w (t - j) = schedule B (t.toNat - j.toNat) := fun j h1 h16 => by
    have hsub : (t - j).toNat = t.toNat - j.toNat := BitVec.toNat_sub_of_le (by bv_omega)
    rw [h.words (t - j) (by omega), hsub]
  rw [back 16 (by decide) (by decide), back 15 (by decide) (by decide),
    back 7 (by decide) (by decide), back 2 (by decide) (by decide)]
  have hword := word t h
  rwa [schedule_of_ge B ht] at hword

theorem rinit (h : AfterTurns s0 B 65 s) :
    ∃ t, exec .rinit s = .next t ∧ AfterTurns s0 B 66 t :=
  ⟨_, rfl, { h with
    seq := rfl
    hash := fun _ => h.hash (by decide)
    words := fun j _ => h.words j (by omega)
    working := fun k hk => by
      obtain rfl : k = 0 := by omega
      exact congrArg workOf (h.hash (by decide)) }⟩

theorem round {t : BitVec 6} (h : AfterTurns s0 B (66 + t.toNat) s) :
    ∃ u, exec (.round t) s = .next u ∧ AfterTurns s0 B (66 + t.toNat + 1) u :=
  ⟨_, exec_round_seqAfter s t, { h with
    seq := rfl
    hash := fun _ => h.hash (by omega)
    words := fun j _ => h.words j (by omega)
    working := fun k hk => by
      obtain rfl : k = t.toNat + 1 := by omega
      simp [roundsUpTo, h.working t.toNat rfl, h.words t (by omega)] }⟩

/-- Each turn before the last performs a micro-operation and brings the invocation one further. -/
theorem turn (h : AfterTurns s0 B n s) (hn : n < 130) :
    ∃ i t, decodeMicro s.seq = .ok i ∧ exec i s = .next t ∧ AfterTurns s0 B (n + 1) t := by
  obtain ⟨i, hd, rfl⟩ := decodeMicro_seqAfter (n := n) (by omega)
  rw [← h.seq] at hd
  obtain ⟨hi, hwf, -⟩ := decodeMicro_ok hd
  suffices hexec : ∃ t, exec i s = .next t ∧ AfterTurns s0 B (turnOf i + 1) t from
    hexec.elim fun t ht => ⟨i, t, hd, ht⟩
  cases i with
  | clr | push _ | start | rdw _ | rdb _ | stat => cases hi
  | idle | accum => simp [turnOf] at hn
  | hinit => exact h.hinit
  | wload t => exact h.wload
  | wexp t => exact h.wexp (of_decide_eq_true hwf)
  | rinit => exact h.rinit
  | round t => exact h.round

/-- The last turn leaves the result (R101, R111). -/
theorem accum (h : AfterTurns s0 B 130 s) :
    ∃ t, exec .accum s = .next t ∧ t.h = compressCore h0Rom B ∧ t.valid = true ∧ t.busy = false ∧
      t.seq = 0 := by
  refine ⟨_, rfl, ?_, rfl, rfl, rfl⟩
  show accumulate s.h s.work = compressCore h0Rom B
  rw [h.hash (by decide), h.working 64 rfl]
  rfl

end AfterTurns

/-! ## The host's commands in between (R48) -/

theorem run_succ_of_step {s t : State} (h : step s = .next t) (n : Nat) :
    core.run (n + 1) s = core.run n t := by
  simp [Host.Core.run, show core.step s = .next t from h]

/-- From any point of an invocation the remaining turns finish it, whatever commands stand between
them. -/
theorem AfterTurns.run {s0 s : State} {B : Nat → Byte} {n : Nat} {before rest : List Event}
    (h : AfterTurns s0 B n s) (hin : s.inbox = before ++ .seqTurn :: rest)
    (hreset : .reset ∉ before) (hcount : n + before.count .seqTurn = 130) :
    ∃ t, core.run (before.length + 1) s = .next t ∧ t.inbox = rest ∧
      t.h = compressCore h0Rom B ∧ t.valid = true ∧ t.busy = false ∧
      t.blk = s0.blk ∧ t.len = s0.len := by
  induction before generalizing s n with
  | nil =>
    obtain rfl : n = 130 := hcount
    have hd : decodeMicro s.seq = .ok .accum := by rw [h.seq]; rfl
    obtain ⟨t, hexec, hh, hvalid, hbusy, -⟩ := (h.withHost rest s.outbox).accum
    obtain ⟨hblk, hlen, hinbox⟩ := (exec_microEffect rfl hexec).frame
    have hstep : step s = .next t := (step_of_seqTurn hin hd).trans hexec
    exact ⟨t, run_succ_of_step hstep 0, hinbox, hh, hvalid, hbusy, hblk.trans h.blk,
      hlen.trans h.len⟩
  | cons e before ih =>
    have hreset' : .reset ∉ before := fun hmem => hreset (List.mem_cons_of_mem _ hmem)
    cases e with
    | reset => exact absurd List.mem_cons_self hreset
    | command cw =>
      obtain ⟨c, d, hstep⟩ := step_command_of_busy hin h.busy
      rw [List.length_cons, run_succ_of_step hstep]
      exact ih (h.withHost ..) rfl hreset' (by simpa using hcount)
    | seqTurn =>
      rw [List.count_cons_self] at hcount
      obtain ⟨i, t, hd, hexec, ht⟩ :=
        (h.withHost (before ++ .seqTurn :: rest) s.outbox).turn (by omega)
      obtain ⟨-, -, hinbox⟩ := (exec_microEffect (decodeMicro_ok hd).1 hexec).frame
      rw [List.length_cons, run_succ_of_step ((step_of_seqTurn hin hd).trans hexec)]
      exact ih ht hinbox hreset' (by omega)

/-- Settles O49: a command while busy only answers, so the 131 turns are those of the invocation. -/
theorem hostCannotDisturbInvocation : Obligations.HostCannotDisturbInvocation := by
  unfold Obligations.HostCannotDisturbInvocation
  intro s B before rest hs hin hreset hcount
  exact hs.afterTurns.run hin hreset (by omega)

end Sys2Proof.Machine

/-! # The encoding: the decoder, the encoder and the opcode table, and what an undecodable word does -/

namespace Sys2Proof.Machine

/-! ## Decoding an encoded instruction (R67) -/

/-- The decoder reads back the word of every instruction of the table. -/
theorem decode_encode {i : Instr} (hi : i.WellFormed) : decode (encode i) = .ok i := by
  cases i with
  | clr | start | stat | idle | hinit | rinit | accum => rfl
  | push b => revert b; decide
  | rdw k => revert k; decide
  | rdb j => revert j; decide
  | wload t => revert t; decide
  | wexp t => revert t; decide
  | round t => revert t; decide

/-- No two instructions share a word. -/
theorem encode_injective {i j : Instr} (hi : i.WellFormed) (hj : j.WellFormed)
    (h : encode i = encode j) : i = j := by
  have hij : (.ok i : Except Reject Instr) = .ok j :=
    (decode_encode hi).symm.trans (h ▸ decode_encode hj)
  exact Except.ok.inj hij

/-- Settles O1, constructor by constructor over the operand's values. -/
theorem decodeOfEncode : Obligations.DecodeOfEncode := fun _ => decode_encode

/-! ## Encoding a decoded word (R52, R53, R56) -/

/-- A command word is its three fields joined (R52). -/
theorem fields_append (cw : BitVec 16) : opField cw ++ (rsvField cw ++ argField cw) = cw := by
  have hlow : rsvField cw ++ argField cw = cw.extractLsb' 0 12 :=
    BitVec.extractLsb'_append_extractLsb'_eq_extractLsb' rfl
  have hall : opField cw ++ cw.extractLsb' 0 12 = cw.extractLsb' 0 16 :=
    BitVec.extractLsb'_append_extractLsb'_eq_extractLsb' rfl
  rw [hlow, hall, BitVec.extractLsb'_eq_self]

/-- A command word whose reserved bits are 0 is fixed by its `op` and `arg` fields. -/
theorem eq_of_fields {cw : BitVec 16} {n : Nat} (hop : (opField cw).toNat = n)
    (hrsv : rsvField cw = 0) : BitVec.ofNat 4 n ++ (0#4 ++ argField cw) = cw := by
  have hopn : BitVec.ofNat 4 n = opField cw := by simp [← hop]
  have hzero : 0#4 = rsvField cw := hrsv.symm
  rw [hopn, hzero, fields_append]

/-- A host command has no operand out of range: `arg` is as wide as its range (R54). -/
theorem wellFormed_of_isCommand {i : Instr} (h : isCommand i = true) : i.WellFormed := by
  cases i with
  | clr | push _ | start | rdw _ | rdb _ | stat => rfl
  | idle | hinit | wload _ | wexp _ | rinit | round _ | accum => cases h

/-- A command word that decodes is the word of its command: the decoder looks at every bit. -/
theorem encode_of_decodeCommand {cw : BitVec 16} {i : Instr} (h : decodeCommand cw = .ok i) :
    encode i = .command cw := by
  simp only [decodeCommand] at h
  split at h
  · cases h
  next hrsv =>
  have hrsv : rsvField cw = 0 := not_not.1 hrsv
  split at h
  case h_7 => cases h
  all_goals
    rw [← eq_of_fields ‹_› hrsv]
    generalize argField cw = arg at h
  · obtain ⟨rfl, rfl⟩ := noOperand_eq_ok.1 h; rfl
  · cases h; revert arg; decide
  · obtain ⟨rfl, rfl⟩ := noOperand_eq_ok.1 h; rfl
  · split_ifs at h with harg
    cases h; revert arg; decide
  · split_ifs at h with harg
    cases h; revert arg; decide
  · obtain ⟨rfl, rfl⟩ := noOperand_eq_ok.1 h; rfl

/-- A word of either format that decodes is the word of an instruction of the table. -/
theorem encode_of_decode {w : Encoded} {i : Instr} (h : decode w = .ok i) :
    i.WellFormed ∧ encode i = w := by
  cases w with
  | command cw =>
    exact ⟨wellFormed_of_isCommand (isCommand_of_decodeCommand h), encode_of_decodeCommand h⟩
  | micro q => exact (decodeMicro_ok h).2

/-- Settles O2, format by format. -/
theorem encodeOfDecode : Obligations.EncodeOfDecode := fun _ _ => encode_of_decode

/-- Settles O6, by evaluating the decoder on each word. -/
theorem sampleWordsDecode : Obligations.SampleWordsDecode := by
  unfold Obligations.SampleWordsDecode
  decide

/-! ## The rows of the opcode table (R66) -/

/-- A word that agrees with `v` in its high `n` bits is `v` followed by its `k` low bits. -/
theorem exists_append_of_mask {n k : Nat} {x : BitVec (n + k)} (v : BitVec n)
    (h : x.toNat &&& (BitVec.allOnes n ++ 0#k).toNat = (v ++ 0#k).toNat) :
    ∃ y : BitVec k, v ++ y = x := by
  have hsplit : x.extractLsb' k n ++ x.extractLsb' 0 k = x := BitVec.extractLsb'_append_extractLsb'
  have hmask : x &&& (BitVec.allOnes n ++ 0#k) = v ++ 0#k :=
    BitVec.toNat_inj.1 ((BitVec.toNat_and ..).trans h)
  rw [← hsplit, BitVec.and_append, BitVec.and_allOnes, BitVec.and_zero,
    BitVec.append_left_inj] at hmask
  exact ⟨x.extractLsb' 0 k, hmask ▸ hsplit⟩

/-- A word that agrees with `v` in every bit is `v`. -/
theorem eq_of_full_mask {n : Nat} {x : BitVec n} (v : BitVec n)
    (h : x.toNat &&& (BitVec.allOnes n).toNat = v.toNat) : v = x := by
  rw [← BitVec.toNat_and, BitVec.and_allOnes, BitVec.toNat_inj] at h
  exact h.symm

/-- A command word selects a row of format C, by the row's mask and value. -/
theorem selectsRow_command_iff {cw : BitVec 16} {r : TableRow} (hr : r ∈ opcodeTable) :
    selectsRow (.command cw) r = true ↔ r ∈ commandRows ∧ cw.toNat &&& r.mask = r.value := by
  have hformat : ∀ r ∈ opcodeTable, r.command = true ↔ r ∈ commandRows := by decide
  simp [selectsRow, hformat r hr]

/-- A value of `SEQ` selects a row of format U, by the row's mask, value and least index. -/
theorem selectsRow_micro_iff {q : BitVec 9} {r : TableRow} (hr : r ∈ opcodeTable) :
    selectsRow (.micro q) r = true ↔
      r ∈ microRows ∧ q.toNat &&& r.mask = r.value ∧ r.minIndex ≤ (tField q).toNat := by
  have hformat : ∀ r ∈ opcodeTable, r.command = false ↔ r ∈ microRows := by decide
  simp [selectsRow, hformat r hr, and_assoc]

/-- The word is the word of an instruction of the row. -/
def InRow (w : Encoded) (r : TableRow) : Prop :=
  ∃ i : Instr, i.WellFormed ∧ encode i = w ∧ mnemonic i = r.mnemonic

/-- The command words of a row of format C are those of its instructions, operand by operand. -/
theorem inRow_of_commandRow {cw : BitVec 16} {r : TableRow} (hr : r ∈ commandRows)
    (h : cw.toNat &&& r.mask = r.value) : InRow (.command cw) r := by
  simp only [commandRows, List.mem_cons, List.not_mem_nil, or_false] at hr
  rcases hr with rfl | rfl | rfl | rfl | rfl | rfl
  · obtain rfl := eq_of_full_mask 0x1000 h
    exact ⟨.clr, rfl, rfl, rfl⟩
  · obtain ⟨b, rfl⟩ := exists_append_of_mask (n := 8) (k := 8) 0x20 h
    exact ⟨.push b, rfl, rfl, rfl⟩
  · obtain rfl := eq_of_full_mask 0x3000 h
    exact ⟨.start, rfl, rfl, rfl⟩
  · obtain ⟨k, rfl⟩ := exists_append_of_mask (n := 13) (k := 3) 0b0100000000000 h
    exact ⟨.rdw k, rfl, rfl, rfl⟩
  · obtain ⟨j, rfl⟩ := exists_append_of_mask (n := 11) (k := 5) 0b01010000000 h
    exact ⟨.rdb j, rfl, rfl, rfl⟩
  · obtain rfl := eq_of_full_mask 0x6000 h
    exact ⟨.stat, rfl, rfl, rfl⟩

/-- The values of `SEQ` of a row of format U are those of its instructions, index by index. -/
theorem inRow_of_microRow {q : BitVec 9} {r : TableRow} (hr : r ∈ microRows)
    (h : q.toNat &&& r.mask = r.value) (hmin : r.minIndex ≤ (tField q).toNat) :
    InRow (.micro q) r := by
  simp only [microRows, List.mem_cons, List.not_mem_nil, or_false] at hr
  rcases hr with rfl | rfl | rfl | rfl | rfl | rfl | rfl
  · obtain rfl := eq_of_full_mask 0x000 h
    exact ⟨.idle, rfl, rfl, rfl⟩
  · obtain rfl := eq_of_full_mask 0x040 h
    exact ⟨.hinit, rfl, rfl, rfl⟩
  · obtain ⟨t, rfl⟩ := exists_append_of_mask (n := 5) (k := 4) 0b01000 h
    refine ⟨.wload t, rfl, ?_, rfl⟩
    clear h hmin
    revert t; decide
  · obtain ⟨t, rfl⟩ := exists_append_of_mask (n := 3) (k := 6) phWexp h
    have ht : 16 ≤ t.toNat := (congrArg BitVec.toNat (tField_seqOf phWexp t)) ▸ hmin
    exact ⟨.wexp t, decide_eq_true ht, rfl, rfl⟩
  · obtain rfl := eq_of_full_mask 0x100 h
    exact ⟨.rinit, rfl, rfl, rfl⟩
  · obtain ⟨t, rfl⟩ := exists_append_of_mask (n := 3) (k := 6) phRound h
    exact ⟨.round t, rfl, rfl, rfl⟩
  · obtain rfl := eq_of_full_mask 0x180 h
    exact ⟨.accum, rfl, rfl, rfl⟩

/-- A word selects a row of the table only if it is the word of an instruction of that row. -/
theorem inRow_of_selectsRow {w : Encoded} {r : TableRow} (hr : r ∈ opcodeTable)
    (h : selectsRow w r = true) : InRow w r := by
  cases w with
  | command cw =>
    obtain ⟨hrow, hmask⟩ := (selectsRow_command_iff hr).1 h
    exact inRow_of_commandRow hrow hmask
  | micro q =>
    obtain ⟨hrow, hmask, hmin⟩ := (selectsRow_micro_iff hr).1 h
    exact inRow_of_microRow hrow hmask hmin

/-- The word of every instruction of the table selects the row of its mnemonic. -/
theorem encodesInRow (i : Instr) : Laws.EncodesInRow.Statement i := by
  cases i with
  | clr => exact Laws.EncodesInRow.clr
  | push b => exact Laws.EncodesInRow.push b
  | start => exact Laws.EncodesInRow.start
  | rdw k => exact Laws.EncodesInRow.rdw k
  | rdb j => exact Laws.EncodesInRow.rdb j
  | stat => exact Laws.EncodesInRow.stat
  | idle => exact Laws.EncodesInRow.idle
  | hinit => exact Laws.EncodesInRow.hinit
  | wload t => exact Laws.EncodesInRow.wload t
  | wexp t => exact Laws.EncodesInRow.wexp t
  | rinit => exact Laws.EncodesInRow.rinit
  | round t => exact Laws.EncodesInRow.round t
  | accum => exact Laws.EncodesInRow.accum

/-- A word that decodes selects the row of its instruction. -/
theorem exists_row_of_decode {w : Encoded} {i : Instr} (h : decode w = .ok i) :
    ∃ r ∈ opcodeTable, selectsRow w r = true ∧ r.mnemonic = mnemonic i := by
  obtain ⟨hi, rfl⟩ := encode_of_decode h
  exact encodesInRow i hi

/-- The decoder accepts exactly the words that select a row of the table. -/
theorem decode_ok_iff_selectsRow (w : Encoded) :
    (∃ i, decode w = .ok i) ↔ ∃ r ∈ opcodeTable, selectsRow w r = true := by
  constructor
  · rintro ⟨i, h⟩
    obtain ⟨r, hr, hsel, -⟩ := exists_row_of_decode h
    exact ⟨r, hr, hsel⟩
  · rintro ⟨r, hr, hsel⟩
    obtain ⟨i, hi, rfl, -⟩ := inRow_of_selectsRow hr hsel
    exact ⟨i, decode_encode hi⟩

/-- No word selects two rows: both would carry the mnemonic of the word's one instruction. -/
theorem selectsRow_unique {w : Encoded} {r r' : TableRow} (hr : r ∈ opcodeTable)
    (hr' : r' ∈ opcodeTable) (h : selectsRow w r = true) (h' : selectsRow w r' = true) : r = r' := by
  have names : ∀ r ∈ opcodeTable, ∀ r' ∈ opcodeTable, r.mnemonic = r'.mnemonic → r = r' := by decide
  obtain ⟨i, hi, hw, hname⟩ := inRow_of_selectsRow hr h
  obtain ⟨j, hj, hw', hname'⟩ := inRow_of_selectsRow hr' h'
  obtain rfl := encode_injective hi hj (hw.trans hw'.symm)
  exact names r hr r' hr' (hname.symm.trans hname')

/-- Settles O5, through the one instruction of a word that selects a row. -/
theorem opcodeRowsSelect : Obligations.OpcodeRowsSelect :=
  ⟨decode_ok_iff_selectsRow, fun _ _ => exists_row_of_decode,
    fun _ _ hr _ hr' => selectsRow_unique hr hr'⟩

/-! ## The printed predicates (R55, R60) -/

/-- The predicate of R55 says that the word selects a row of the table. -/
theorem legalCommand_iff_selectsRow (cw : BitVec 16) :
    legalCommand cw = true ↔ ∃ r ∈ opcodeTable, selectsRow (.command cw) r = true := by
  have hfull : cw.toNat &&& 65535 = cw.toNat := by
    rw [Nat.and_two_pow_sub_one_eq_mod _ 16, Nat.mod_eq_of_lt cw.isLt]
  simp [legalCommand, selectsRow, opcodeTable, commandRows, microRows, BitVec.toNat_eq, hfull,
    or_assoc]

/-- The decoder accepts exactly the command words that are legal by R55. -/
theorem decodeCommand_ok_iff_legal (cw : BitVec 16) :
    (∃ i, decodeCommand cw = .ok i) ↔ legalCommand cw = true :=
  (decode_ok_iff_selectsRow (.command cw)).trans (legalCommand_iff_selectsRow cw).symm

/-- Settles O3: decoder and predicate both say that the word selects a row of the table. -/
theorem commandWordLegal : Obligations.CommandWordLegal := fun cw =>
  ⟨decodeCommand_ok_iff_legal cw, fun _ => isCommand_of_decodeCommand⟩

/-- The word of every micro-operation in range is in the ranges of R60. -/
theorem legalSeq_of_decodeMicro {q : BitVec 9} {i : Instr} (h : decodeMicro q = .ok i) :
    legalSeq q = true := by
  obtain ⟨hmicro, hi, hword⟩ := decodeMicro_ok h
  cases i with
  | clr | push _ | start | rdw _ | rdb _ | stat => cases hmicro
  | idle | hinit | rinit | accum => cases hword; decide
  | wload t =>
    cases hword
    clear h
    revert t; decide
  | wexp t => cases hword; exact legalSeq_wexp t (of_decide_eq_true hi)
  | round t => cases hword; exact legalSeq_round t

/-- Settles O4, from the ranges of the decoded instruction's index. -/
theorem microWordLegal : Obligations.MicroWordLegal := fun _ =>
  ⟨⟨fun ⟨_, h⟩ => legalSeq_of_decodeMicro h, decodeMicro_of_legalSeq⟩,
    fun _ h => (decodeMicro_ok h).1⟩

/-! ## What an undecodable word does (R56, R61, R106) -/

/-- The decoder refuses every command word that is not legal by R55. -/
theorem decodeCommand_error_of_illegal {cw : BitVec 16} (h : legalCommand cw = false) :
    ∃ r, decodeCommand cw = .error r := by
  cases hd : decodeCommand cw with
  | error r => exact ⟨r, rfl⟩
  | ok i =>
    have hlegal : legalCommand cw = true := (decodeCommand_ok_iff_legal cw).1 ⟨i, hd⟩
    simp [hlegal] at h

/-- Settles O9: the decoder refuses an illegal word, and the step answers the refusal. -/
theorem illegalCommandWordRefused : Obligations.IllegalCommandWordRefused := by
  unfold Obligations.IllegalCommandWordRefused
  refine ⟨fun s cw rest hin hillegal => ?_, by decide, by decide, fun cw => ?_⟩
  · obtain ⟨r, hd⟩ := decodeCommand_error_of_illegal hillegal
    exact step_of_illegal_command hin hd
  · cases hd : decodeCommand cw with
    | error r => exact .inr ⟨r, rfl⟩
    | ok i => exact .inl ⟨i, rfl, isCommand_of_decodeCommand hd⟩

/-- The sequencer's turn stops on every value of `SEQ` outside the ranges of R60. -/
theorem seqStep_of_illegal {s : State} (h : legalSeq s.seq = false) :
    seqStep s = .stop .illegalSeq := by
  cases hd : decodeMicro s.seq with
  | error r => simp [seqStep, hd]
  | ok i => simp [legalSeq_of_decodeMicro hd] at h

/-- Settles O10: the sequencer's turn, silent host or not, and `WEXP` below its first index. -/
theorem illegalSequencerValueStops : Obligations.IllegalSequencerValueStops := by
  unfold Obligations.IllegalSequencerValueStops
  refine ⟨fun s hturn hillegal => ?_, fun t s ht => ?_⟩
  · rcases hturn with hin | ⟨rest, hin⟩
    · simp [step, takeTurn_nil hin, seqStep_of_illegal hillegal]
    · have hstop : seqStep { s with inbox := rest } = .stop .illegalSeq := seqStep_of_illegal hillegal
      simp [step, takeTurn_seqTurn hin, hstop]
  · simp [exec, execWexp, Nat.not_le.2 ht]

/-! ## One response for one command word (R57) -/

/-- The two fields of the 36-bit response are its code and its data. -/
theorem Response.word_fields (r : Response) :
    r.word.extractLsb' 32 4 = r.code.bits ∧ r.word.extractLsb' 0 32 = r.data :=
  ⟨BitVec.extractLsb'_append_eq_left, BitVec.extractLsb'_append_eq_right⟩

/-- Every host command gives one response and takes no event. -/
theorem CommandEffect.answers {s t : State} {i : Instr} (h : CommandEffect s i t) :
    t.inbox = s.inbox ∧ ∃ r, t.outbox = r :: s.outbox := by
  cases h <;> exact ⟨rfl, _, rfl⟩

/-- Every host command answers a next state. -/
theorem exec_command_next {i : Instr} (hi : isCommand i = true) (s : State) :
    ∃ t, exec i s = .next t := by
  cases i with
  | clr | push _ | start | rdw _ | rdb _ | stat => exact ⟨_, rfl⟩
  | idle | hinit | wload _ | wexp _ | rinit | round _ | accum => cases hi

/-- Every command word, legal or not, is taken from the inbox and gets one response. -/
theorem step_command_answers {s : State} {cw : BitVec 16} {rest : List Event}
    (hin : s.inbox = .command cw :: rest) :
    ∃ t r, step s = .next t ∧ t.inbox = rest ∧ t.outbox = r :: s.outbox := by
  cases hd : decodeCommand cw with
  | error e => exact ⟨_, _, step_of_illegal_command hin hd, rfl, rfl⟩
  | ok i =>
    have hi := isCommand_of_decodeCommand hd
    obtain ⟨t, ht⟩ := exec_command_next hi { s with inbox := rest }
    obtain ⟨hinbox, r, hout⟩ := (exec_commandEffect hi ht).answers
    exact ⟨t, r, (step_of_command hin hd).trans ht, hinbox, hout⟩

/-- No micro-operation gives a response. -/
theorem MicroEffect.outbox_eq {s t : State} {i : Instr} (h : MicroEffect s i t) :
    t.outbox = s.outbox := by
  cases h <;> rfl

/-- A step that takes no command word gives no response. -/
theorem step_outbox_of_not_command {s t : State} (hin : ∀ cw rest, s.inbox ≠ .command cw :: rest)
    (h : step s = .next t) : t.outbox = s.outbox := by
  rcases step_next h with ⟨i, u, hturn, hexec⟩ | ⟨cw, rest, r, hcommand, -⟩ | ⟨rest, -, rfl⟩
  · obtain ⟨rfl, ⟨cw, rest, hcommand, -⟩ | ⟨-, hd⟩⟩ := takeTurn_run hturn
    · exact absurd hcommand (hin cw rest)
    · exact (exec_microEffect (decodeMicro_ok hd).1 hexec).outbox_eq
  · exact absurd hcommand (hin cw rest)
  · rfl

/-- Settles O24: the response of each command word, and the silence of every other step. -/
theorem oneResponsePerCommand : Obligations.OneResponsePerCommand := by
  refine ⟨fun s cw rest hin => ?_, fun _ _ => step_outbox_of_not_command⟩
  obtain ⟨t, r, hstep, hinbox, hout⟩ := step_command_answers hin
  exact ⟨t, r, hstep, hinbox, hout, r.word_fields⟩

end Sys2Proof.Machine

/-! # The datapath: the word functions and the joining of bytes, bit by bit -/

namespace Sys2Proof.Machine

/-! ## Addition (R68) -/

/-- Settles O38: `add32` is the addition of 32-bit vectors. -/
theorem addWraps : Obligations.AddWraps :=
  ⟨BitVec.toNat_add, BitVec.add_comm, BitVec.add_assoc⟩

/-! ## Rotations and shifts (R69, R70) -/

/-- `rotr` is the library's right rotation. -/
theorem rotr_eq_rotateRight (x : Word) (n : Nat) (hn : 1 ≤ n ∧ n ≤ 31) :
    rotr x n hn = x.rotateRight n := by
  rw [rotr, BitVec.rotateRight_def, Nat.mod_eq_of_lt (by omega)]

/-- The bits of a rotated word. -/
theorem getLsbD_rotr (x : Word) (n : Nat) (hn : 1 ≤ n ∧ n ≤ 31) {k : Nat} (hk : k < 32) :
    (rotr x n hn).getLsbD k = x.getLsbD ((k + n) % 32) := by
  rw [rotr_eq_rotateRight, BitVec.getLsbD_rotateRight, Nat.mod_eq_of_lt (by omega : n < 32)]
  by_cases h : k < 32 - n
  · have hplain : (k + n) % 32 = n + k := by omega
    simp [h, hplain]
  · have hwrap : (k + n) % 32 = k - (32 - n) := by omega
    simp [h, hk, hwrap]

/-- The bits of a shifted word: 0 where the source bit lies above the word's top. -/
theorem getLsbD_shr (x : Word) (n k : Nat) :
    (shr x n).getLsbD k = (decide (k + n < 32) && x.getLsbD (k + n)) := by
  rw [shr, BitVec.getLsbD_ushiftRight, Nat.add_comm]
  by_cases h : k + n < 32
  · simp [h]
  · simp [h, BitVec.getLsbD_of_ge x (k + n) (by omega)]

/-- Settles O39, by the two arcs of the rotation: bits that move down and bits that wrap. -/
theorem rotrPermutesBits : Obligations.RotrPermutesBits :=
  fun x n hn _ hk => getLsbD_rotr x n hn hk

/-- Settles O40: each function is an exclusive or of rotations and a shift. -/
theorem sigmaBits : Obligations.SigmaBits := by
  unfold Obligations.SigmaBits
  intro x k hk
  refine ⟨?_, ?_, ?_, ?_⟩
  · simp only [sig0, BitVec.getLsbD_xor, getLsbD_rotr, getLsbD_shr, hk]
  · simp only [sig1, BitVec.getLsbD_xor, getLsbD_rotr, getLsbD_shr, hk]
  · simp only [sum0, BitVec.getLsbD_xor, getLsbD_rotr, hk]
  · simp only [sum1, BitVec.getLsbD_xor, getLsbD_rotr, hk]

/-! ## Choice and majority (R76, R77) -/

/-- A bit of `x` selects the bit of `y` or the bit of `z`. -/
theorem getLsbD_ch (x y z : Word) {k : Nat} (hk : k < 32) :
    (ch x y z).getLsbD k = if x.getLsbD k then y.getLsbD k else z.getLsbD k := by
  simp only [ch, BitVec.getLsbD_xor, BitVec.getLsbD_and, BitVec.getLsbD_not]
  cases x.getLsbD k <;> simp [hk]

theorem getLsbD_maj (x y z : Word) (k : Nat) :
    (maj x y z).getLsbD k = ((x.getLsbD k && y.getLsbD k) ^^ (x.getLsbD k && z.getLsbD k) ^^
      (y.getLsbD k && z.getLsbD k)) := by
  simp [maj]

/-- The exclusive or of the three pairwise conjunctions is the majority of three bits. -/
theorem majority_iff (a b c : Bool) :
    ((a && b) ^^ (a && c) ^^ (b && c)) = true ↔ 2 ≤ a.toNat + b.toNat + c.toNat := by
  revert a b c
  decide

theorem maj_swap_left (x y z : Word) : maj x y z = maj y x z := by
  rw [maj, maj, BitVec.and_comm x y, BitVec.xor_assoc, BitVec.xor_assoc,
    BitVec.xor_comm (x &&& z)]

theorem maj_swap_right (x y z : Word) : maj x y z = maj x z y := by
  rw [maj, maj, BitVec.and_comm y z, BitVec.xor_comm (x &&& y)]

/-- Settles O41, by the three bits at one place. -/
theorem chooseAndMajority : Obligations.ChooseAndMajority := by
  refine ⟨fun x y z _ hk => getLsbD_ch x y z hk, fun x y z k _ => ?_,
    fun x y z => ⟨maj_swap_left x y z, maj_swap_right x y z⟩⟩
  rw [getLsbD_maj]
  exact majority_iff _ _ _

/-! ## Bytes and words (R78, R79) -/

/-- A joined vector read as a number: its high part weighs `2 ^ m`. -/
theorem toNat_append_eq_add {n m : Nat} (x : BitVec n) (y : BitVec m) :
    (x ++ y).toNat = x.toNat * 2 ^ m + y.toNat := by
  rw [BitVec.toNat_append, ← Nat.shiftLeft_add_eq_or_of_lt y.isLt, Nat.shiftLeft_eq]

/-- The weights of the four bytes of a word. -/
theorem toNat_be32 (b0 b1 b2 b3 : Byte) :
    (be32 b0 b1 b2 b3).toNat =
      b0.toNat * 2 ^ 24 + b1.toNat * 2 ^ 16 + b2.toNat * 2 ^ 8 + b3.toNat := by
  rw [be32, toNat_append_eq_add, toNat_append_eq_add, toNat_append_eq_add]
  omega

/-- Byte `m` of a word is its digit `3 - m` to the base 256. -/
theorem toNat_serByte (x : Word) (m : Nat) :
    (serByte x m).toNat = x.toNat / 2 ^ (24 - 8 * m) % 256 := by
  rw [serByte, BitVec.extractLsb'_toNat, Nat.shiftRight_eq_div_pow]

/-- The bytes of a word, joined again, are the word. -/
theorem be32_serByte (x : Word) :
    be32 (serByte x 0) (serByte x 1) (serByte x 2) (serByte x 3) = x := by
  refine BitVec.eq_of_toNat_eq ?_
  simp only [toNat_be32, toNat_serByte]
  omega

/-- The bytes of a joined word are the bytes that were joined. -/
theorem serByte_be32 (b0 b1 b2 b3 : Byte) :
    serByte (be32 b0 b1 b2 b3) 0 = b0 ∧ serByte (be32 b0 b1 b2 b3) 1 = b1 ∧
      serByte (be32 b0 b1 b2 b3) 2 = b2 ∧ serByte (be32 b0 b1 b2 b3) 3 = b3 := by
  refine ⟨?_, ?_, ?_, ?_⟩
  all_goals
    refine BitVec.eq_of_toNat_eq ?_
    rw [toNat_serByte, toNat_be32]
    omega

/-- Settles O42, by the weights of the four bytes. -/
theorem bytesAndWordsInverse : Obligations.BytesAndWordsInverse := by
  unfold Obligations.BytesAndWordsInverse
  refine ⟨toNat_be32, be32_serByte, fun b0 b1 b2 b3 => ?_⟩
  obtain ⟨h0, h1, h2, h3⟩ := serByte_be32 b0 b1 b2 b3
  simp only [ser32, h0, h1, h2, h3]

end Sys2Proof.Machine

/-! # The host commands: their effects, their answers and the status word -/

namespace Sys2Proof.Machine

/-- Settles O7: the host's turn takes the event and performs what the decoder reads from it. -/
theorem stepPerformsCommand : Obligations.StepPerformsCommand := fun _ _ _ _ => step_of_command

/-! ## Commands that write the state (R86 to R88) -/

/-- Settles O14: on the common path an idle core performs the four writes of `CLR`. -/
theorem clrBeginsInvocation : Obligations.ClrBeginsInvocation := fun _ => unlessBusy_of_idle _

/-- `PUSH` while idle with room in the block (R87). -/
theorem exec_push_of_lt {s : State} (b : Byte) (hidle : s.busy = false) (hlen : s.len.toNat < 64) :
    exec (.push b) s = .next (respond .ok 0 (setLen (s.len + 1) (writeBlk s.len.toNat b s))) :=
  (unlessBusy_of_idle _ hidle).trans (by rw [if_pos hlen])

/-- `PUSH` while idle with the block full (R87). -/
theorem exec_push_of_full {s : State} (b : Byte) (hidle : s.busy = false) (hlen : 64 ≤ s.len.toNat) :
    exec (.push b) s = .next (respond .ok 0 s) :=
  (unlessBusy_of_idle _ hidle).trans (by rw [if_neg (Nat.not_lt.2 hlen)])

/-- Settles O15: the write is at `LEN`, and below 64 the increment of `LEN` does not wrap. -/
theorem pushStoresByte : Obligations.PushStoresByte := by
  unfold Obligations.PushStoresByte
  intro b s hidle hlen
  refine ⟨_, exec_push_of_lt b hidle hlen, rfl, ?_, memRead_memWrite_same .., fun a ha =>
    memRead_memWrite_other _ b ha⟩
  show (s.len + 1).toNat = s.len.toNat + 1
  bv_omega

/-- Settles O16: the byte is discarded. -/
theorem pushBeyondBlockDiscarded : Obligations.PushBeyondBlockDiscarded :=
  fun b _ => exec_push_of_full b

/-- Settles O36: of what `PUSH` can do only the store writes the buffer, and it is idle, below 64 and at
`LEN`. -/
theorem pushFrame : Obligations.PushFrame := by
  unfold Obligations.PushFrame
  intro b s t h a ha
  cases exec_commandEffect rfl h with
  | answer => rfl
  | store _ hidle hlen =>
    have hne : a ≠ s.len.toNat := by
      rcases ha with hne | hfull | hbusy
      · exact hne
      · omega
      · simp [hidle] at hbusy
    exact memRead_memWrite_other _ b hne

/-- Settles O17: the length check passes, and an idle core performs the writes of R88. -/
theorem startAccepted : Obligations.StartAccepted := by
  unfold Obligations.StartAccepted
  intro s hidle hlen
  have hlong : ¬tooShort s = true := by simpa [tooShort] using hlen
  refine (unlessBusy_of_idle _ hidle).trans ?_
  rw [if_neg hlong]
  rfl

/-! ## Reads of the result (R89, R90) -/

/-- A read of the result while idle, with a valid result. -/
theorem unlessBusy_readResult_of_valid {s : State} (v : Word) (hidle : s.busy = false)
    (hvalid : s.valid = true) : unlessBusy s (readResult v s) = .next (respond .ok v s) := by
  rw [unlessBusy_of_idle _ hidle, readResult_of_valid v hvalid]

/-- A read of the result while idle, without a valid result. -/
theorem unlessBusy_readResult_of_not_valid {s : State} (v : Word) (hidle : s.busy = false)
    (hvalid : s.valid = false) : unlessBusy s (readResult v s) = .next (refuse .eNoData s) := by
  rw [unlessBusy_of_idle _ hidle, readResult_of_not_valid v hvalid]

/-- Settles O19: a read of `H[i]`. -/
theorem rdwReadsWord : Obligations.RdwReadsWord :=
  fun i s => unlessBusy_readResult_of_valid (hAt s.h i)

/-- The byte view is a byte of the word the index falls into (R37). -/
theorem byteView_eq (h : Vector Word 8) (j : BitVec 5) :
    byteView h j = serByte (h.toList.getD (j.toNat / 4) 0) (j.toNat % 4) := by
  have hj : j.toNat / 4 < 8 := by have := j.isLt; omega
  simp [byteView, hj]

/-- Settles O20: a read of a byte of the view, with zeros above it. -/
theorem rdbReadsByte : Obligations.RdbReadsByte := by
  unfold Obligations.RdbReadsByte
  intro j s hidle hvalid
  refine ⟨(byteView s.h j).setWidth 32, unlessBusy_readResult_of_valid _ hidle hvalid, ?_, ?_⟩
  · rw [BitVec.extractLsb'_setWidth_of_le (by decide), BitVec.extractLsb'_eq_self, byteView_eq,
      serByte]
  · ext k
    simp

/-- Settles O23: both reads take the refusing branch. -/
theorem noDataWithoutResult : Obligations.NoDataWithoutResult := fun s hidle hvalid =>
  ⟨fun i => unlessBusy_readResult_of_not_valid (hAt s.h i) hidle hvalid,
    fun j => unlessBusy_readResult_of_not_valid ((byteView s.h j).setWidth 32) hidle hvalid⟩

/-! ## Commands while an invocation runs (R48, R85) -/

/-- Settles O22: the five commands other than `STAT` share the common path. -/
theorem busyRefusesCommands : Obligations.BusyRefusesCommands := by
  unfold Obligations.BusyRefusesCommands
  intro i s hi hstat hbusy
  cases i with
  | clr | push _ | start | rdw _ | rdb _ => exact unlessBusy_of_busy _ hbusy
  | stat => exact absurd rfl hstat
  | idle | hinit | wload _ | wexp _ | rinit | round _ | accum => cases hi

/-! ## The status word (R22, R91) -/

/-- The weights of the fields of the status word. -/
theorem toNat_status (s : State) :
    (status s).toNat = s.ecause.toNat * 2 ^ 16 + s.err.toNat * 2 ^ 10 + s.valid.toNat * 2 ^ 9 +
      s.busy.toNat * 2 ^ 8 + s.len.toNat := by
  simp only [status, toNat_append_eq_add, BitVec.toNat_ofBool, BitVec.toNat_ofNat]
  omega

/-- The bits 7 to 10 of the status word. -/
theorem getLsbD_status (s : State) :
    (status s).getLsbD 7 = false ∧ (status s).getLsbD 8 = s.busy ∧
      (status s).getLsbD 9 = s.valid ∧ (status s).getLsbD 10 = s.err := by
  simp only [status, BitVec.getLsbD_append, BitVec.getLsbD_ofBool]
  exact ⟨rfl, rfl, rfl, rfl⟩

/-- The fields of the status word that are wider than a bit. -/
theorem extractLsb'_status (s : State) :
    (status s).extractLsb' 0 7 = s.len ∧ (status s).extractLsb' 11 5 = 0 ∧
      (status s).extractLsb' 16 4 = s.ecause ∧ (status s).extractLsb' 20 12 = 0 := by
  have hbusy := s.busy.toNat_lt
  have hvalid := s.valid.toNat_lt
  have herr := s.err.toNat_lt
  have hlen := s.len.isLt
  have hecause := s.ecause.isLt
  simp only [← BitVec.toNat_inj, BitVec.extractLsb'_toNat, Nat.shiftRight_eq_div_pow, toNat_status,
    BitVec.ofNat_eq_ofNat, BitVec.toNat_ofNat]
  omega

/-- Settles O21: the flags as bits, the wider fields as digits of the weighted sum. -/
theorem statReadsStatus : Obligations.StatReadsStatus := by
  unfold Obligations.StatReadsStatus
  intro s
  obtain ⟨hzero, hbusy, hvalid, herr⟩ := getLsbD_status s
  obtain ⟨hlen, hlow, hecause, hhigh⟩ := extractLsb'_status s
  exact ⟨status s, rfl, hlen, hzero, hbusy, hvalid, herr, hlow, hecause, hhigh⟩

/-- The status word is the number its fields add up to. -/
theorem status_eq_ofNat {s : State} {n : Nat}
    (h : s.ecause.toNat * 2 ^ 16 + s.err.toNat * 2 ^ 10 + s.valid.toNat * 2 ^ 9 +
      s.busy.toNat * 2 ^ 8 + s.len.toNat = n) : status s = BitVec.ofNat 32 n := by
  rw [← h, ← toNat_status, BitVec.ofNat_toNat, BitVec.setWidth_eq]

/-- Settles O54: the invariants leave a core running, idle with the report, idle with a result, and
idle with neither. -/
theorem statusShapes : Obligations.StatusShapes := by
  unfold Obligations.StatusShapes
  intro s hs
  cases hbusy : s.busy with
  | true =>
    obtain ⟨hlen, hvalid, herr⟩ := hs.busyFlags hbusy
    have hecause := hs.causeOfNoErr herr
    exact .inr (.inl (status_eq_ofNat (by simp [hbusy, hvalid, herr, hecause, hlen])))
  | false =>
    cases herr : s.err with
    | true =>
      have hvalid := hs.errNoResult herr
      have hecause := hs.causeOfErr herr
      exact .inr (.inr (.inr ⟨s.len.toNat, hs.lenLe,
        status_eq_ofNat (by simp [hbusy, hvalid, herr, hecause])⟩))
    | false =>
      have hecause := hs.causeOfNoErr herr
      cases hvalid : s.valid with
      | true =>
        have hlen := hs.validLen hvalid
        exact .inr (.inr (.inl (status_eq_ofNat (by simp [hbusy, hvalid, herr, hecause, hlen]))))
      | false =>
        exact .inl ⟨s.len.toNat, hs.lenLe,
          status_eq_ofNat (by simp [hbusy, hvalid, herr, hecause])⟩

end Sys2Proof.Machine

/-! # The sequencer: its micro-operations, its turns and the 131 turns of an invocation -/

namespace Sys2Proof.Machine

/-- Settles O8, for the silent host and for a turn between two commands. -/
theorem stepPerformsMicroOperation : Obligations.StepPerformsMicroOperation :=
  fun _ _ hd => ⟨fun hin => step_of_silent_host hin hd, fun _ hin => step_of_seqTurn hin hd⟩

/-! ## The micro-operations (R95 to R101) -/

/-- Settles O27: the next state of `IDLE` is the state itself. -/
theorem idleDoesNothing : Obligations.IdleDoesNothing := fun _ => rfl

/-- The row of the table of R19, word by word. -/
theorem h0Rom_eq : h0Rom = #v[0x6a09e667, 0xbb67ae85, 0x3c6ef372, 0xa54ff53a,
    0x510e527f, 0x9b05688c, 0x1f83d9ab, 0x5be0cd19] := by decide

/-- Settles O28, with the words of the ROM. -/
theorem hinitSetsInitialValues : Obligations.HinitSetsInitialValues := by
  refine ⟨rfl, fun s => ?_⟩
  rw [← h0Rom_eq]
  rfl

/-- Settles O29: the four bytes are joined big-endian and written to the one schedule word. -/
theorem wloadLoadsWord : Obligations.WloadLoadsWord := by
  refine ⟨by decide, fun t s b0 b1 b2 b3 h0 h1 h2 h3 => ?_⟩
  have hread : memRead4 s.blk (wordAddr t) = some (be32 b0 b1 b2 b3) :=
    memRead4_eq_some.2 ⟨b0, b1, b2, b3, h0, h1, h2, h3, rfl⟩
  have hindex : (t.setWidth 6).toNat = t.toNat := BitVec.toNat_setWidth_of_le (by decide)
  have hseq : ∀ t : BitVec 4, (seqAfter (turnOf (.wload t) + 1)).toNat =
      if t.toNat < 15 then 0x080 + t.toNat + 1 else 0x0D0 := by decide
  refine ⟨_, exec_wload_seqAfter hread, rfl, ?_, fun k hk => ?_, hseq t⟩
  · exact (congrArg BitVec.toNat (wAt_set_same ..)).trans (toNat_be32 b0 b1 b2 b3)
  · exact wAt_set_other _ _ fun hkt => hk (hkt ▸ hindex)

/-- The index `n` places back, for an index that is not below `n`. -/
theorem index_sub {t : BitVec 6} {n : Nat} (h16 : n ≤ 16) (hn : n ≤ t.toNat) :
    t - BitVec.ofNat 6 n = BitVec.ofNat 6 (t.toNat - n) := by
  rw [← BitVec.ofNat_sub_ofNat_of_le _ _ (by omega) hn, BitVec.ofNat_toNat, BitVec.setWidth_eq]

/-- Settles O30: none of the four indices wraps around, and only the new word is written. -/
theorem wexpExtendsSchedule : Obligations.WexpExtendsSchedule := by
  refine ⟨by decide, fun t s ht => ?_⟩
  have hseq : ∀ t : BitVec 6, 16 ≤ t.toNat → (seqAfter (turnOf (.wexp t) + 1)).toNat =
      if t.toNat < 63 then 0x0C0 + t.toNat + 1 else 0x100 := by decide
  refine ⟨_, exec_wexp_seqAfter s ht, rfl, ?_, fun k hk => wAt_set_other _ _ hk, hseq t ht⟩
  rw [← index_sub (n := 16) (by omega) ht, ← index_sub (n := 15) (by omega) (by omega),
    ← index_sub (n := 7) (by omega) (by omega), ← index_sub (n := 2) (by omega) (by omega)]
  exact wAt_set_same ..

/-- Settles O31: the registers are those of `H`, lane by lane. -/
theorem rinitCopiesState : Obligations.RinitCopiesState := ⟨rfl, fun _ => rfl⟩

/-- Settles O32: the new registers are the sums of R81 over the old ones. -/
theorem roundCompresses : Obligations.RoundCompresses := by
  refine ⟨by decide, fun t s => ?_⟩
  have hseq : ∀ t : BitVec 6, (seqAfter (turnOf (.round t) + 1)).toNat =
      if t.toNat < 63 then 0x140 + t.toNat + 1 else 0x180 := by decide
  exact ⟨_, exec_round_seqAfter s t, rfl, hseq t⟩

/-- Settles O33: the eight sums and the three control fields, in one next state. -/
theorem accumFinishes : Obligations.AccumFinishes := ⟨rfl, fun _ => rfl⟩

/-! ## The sequencer's turn under the invariants (R102, R105) -/

/-- `SEQ` holds a micro-operation exactly at its turn, and `IDLE` after the last (R102). -/
theorem seq_eq_seqAfter {q : BitVec 9} {i : Instr} (h : decodeMicro q = .ok i) :
    q = seqAfter (turnOf i) := by
  have all : ∀ q : BitVec 9, ∀ i ∈ (decodeMicro q).toOption, q = seqAfter (turnOf i) := by decide
  exact all q i (by rw [h]; rfl)

/-- The trace of an invocation follows the successor function, and ends in `{IDLE, 0}` (R102). -/
theorem successor_seqAfter (n : Nat) : successor (seqAfter n) = seqAfter (n + 1) := by
  have all : ∀ n < 131, successor (seqAfter n) = seqAfter (n + 1) := by decide
  have last : ∀ k, seqAfter (k + 131) = 0 := fun k => by simp [seqAfter]
  rcases Nat.lt_or_ge n 131 with hn | hn
  · exact all n hn
  · obtain ⟨k, rfl⟩ := Nat.exists_eq_add_of_le' hn
    rw [last, Nat.add_right_comm, last]
    rfl

/-- On the sequencer's turn the step performs what `SEQ` holds (R95). -/
theorem step_of_sequencer {s : State} {i : Instr}
    (hturn : s.inbox = [] ∨ ∃ rest, s.inbox = .seqTurn :: rest) (hd : decodeMicro s.seq = .ok i) :
    step s = exec i { s with inbox := s.inbox.tail } := by
  rcases hturn with hin | ⟨rest, hin⟩
  · have hsame : { s with inbox := s.inbox.tail } = s := by rw [hin, List.tail_nil, ← hin]
    rw [hsame, step_of_silent_host hin hd]
  · rw [hin, List.tail_cons, step_of_seqTurn hin hd]

namespace CoreInv

variable {s : State}

/-- Under the invariants the micro-operation that `SEQ` holds goes on, to the next turn's value of
`SEQ`. -/
theorem exec_micro (hs : CoreInv s) {i : Instr} (hd : decodeMicro s.seq = .ok i) :
    ∃ t, exec i s = .next t ∧ t.seq = seqAfter (turnOf i + 1) := by
  obtain ⟨hi, hwf, -⟩ := decodeMicro_ok hd
  cases i with
  | clr | push _ | start | rdw _ | rdb _ | stat => cases hi
  | idle => exact ⟨s, rfl, seq_eq_seqAfter hd⟩
  | hinit | rinit | accum => exact ⟨_, rfl, rfl⟩
  | wload k =>
    obtain ⟨hlen, -, -⟩ := hs.busyFlags (hs.busy_of_decodeMicro hd nofun)
    obtain ⟨v, hv⟩ := hs.exists_memRead4 hlen k
    exact ⟨_, exec_wload_seqAfter hv, rfl⟩
  | wexp k => exact ⟨_, exec_wexp_seqAfter s (of_decide_eq_true hwf), rfl⟩
  | round k => exact ⟨_, exec_round_seqAfter s k, rfl⟩

/-- Under the invariants the sequencer's turn goes on, takes its event, and moves `SEQ` to its
successor. -/
theorem step_sequencer (hs : CoreInv s)
    (hturn : s.inbox = [] ∨ ∃ rest, s.inbox = .seqTurn :: rest) :
    ∃ t, Machine.step s = .next t ∧ t.inbox = s.inbox.tail ∧ t.seq = successor s.seq := by
  obtain ⟨i, hd⟩ := decodeMicro_of_legalSeq hs.seqLegal
  obtain ⟨t, hexec, hseq⟩ := (hs.withInbox s.inbox.tail).exec_micro hd
  obtain ⟨-, -, hinbox⟩ := (exec_microEffect (decodeMicro_ok hd).1 hexec).frame
  exact ⟨t, (step_of_sequencer hturn hd).trans hexec, hinbox, by
    rw [hseq, seq_eq_seqAfter hd, successor_seqAfter]⟩

end CoreInv

/-- Settles O53, by what stands next in the inbox: only the sequencer could stop, and the invariants
keep it going. -/
theorem nothingStopsTheMachine : Obligations.NothingStopsTheMachine := by
  unfold Obligations.NothingStopsTheMachine
  intro s hs
  cases hin : s.inbox with
  | nil => exact (hs.step_sequencer (.inl hin)).imp fun _ h => h.1
  | cons e rest =>
    cases e with
    | command cw =>
      obtain ⟨t, -, hstep, -⟩ := step_command_answers hin
      exact ⟨t, hstep⟩
    | seqTurn => exact (hs.step_sequencer (.inr ⟨rest, hin⟩)).imp fun _ h => h.1
    | reset => exact ⟨_, step_of_reset hin⟩

/-! ## What a command does to `SEQ` (R94, R102) -/

/-- `START` writes `SEQ` exactly when it is accepted (R88). -/
theorem exec_start_seq {s t : State} (h : exec .start s = .next t) :
    t.seq = if s.busy = false ∧ 64 ≤ s.len.toNat then 0x040 else s.seq := by
  rcases unlessBusy_next h with ⟨hbusy, rfl⟩ | ⟨hidle, rfl⟩
  · simp [hbusy, refuse]
  · by_cases hlen : 64 ≤ s.len.toNat
    · have hlong : ¬tooShort s = true := by simpa [tooShort] using hlen
      rw [if_neg hlong, if_pos ⟨hidle, hlen⟩]
      rfl
    · have hshort : tooShort s = true := by simpa [tooShort] using hlen
      rw [if_pos hshort, if_neg fun h => hlen h.2]
      rfl

/-- A command word other than `START` leaves `SEQ` alone. -/
theorem step_command_seq {s t : State} {cw : BitVec 16} {rest : List Event}
    (hin : s.inbox = .command cw :: rest) (hcw : cw ≠ 0x3000) (h : step s = .next t) :
    t.seq = s.seq := by
  cases hd : decodeCommand cw with
  | error r =>
    rw [step_of_illegal_command hin hd] at h
    cases h
    rfl
  | ok i =>
    rw [step_of_command hin hd] at h
    have hstart : i ≠ .start := by
      rintro rfl
      exact hcw (Encoded.command.inj (encode_of_decodeCommand hd)).symm
    obtain ⟨-, -, hseq, -⟩ := hostCommandFrame _ _ _ (isCommand_of_decodeCommand hd) h
    exact (hseq hstart).1

/-- Settles O46: the sequencer's turn under the invariants, and `START` apart from the other
commands. -/
theorem sequencerTakesSuccessor : Obligations.SequencerTakesSuccessor := by
  refine ⟨fun s hs hturn => ?_, fun s t cw rest hin hstep => ?_⟩
  · obtain ⟨t, hstep, -, hseq⟩ := hs.step_sequencer hturn
    refine ⟨t, hstep, hseq, fun hidle => ?_⟩
    have hd : decodeMicro s.seq = .ok .idle := by rw [hidle]; rfl
    exact Host.Outcome.next.inj (hstep.symm.trans (step_of_sequencer hturn hd))
  · by_cases hcw : cw = 0x3000
    · subst hcw
      rw [step_of_command (i := .start) hin rfl] at hstep
      simpa using exec_start_seq hstep
    · rw [if_neg fun h => hcw h.1, step_command_seq hin hcw hstep]

/-! ## The turns of an invocation (R103, R104) -/

/-- A run is prolonged by a step at its end. -/
theorem run_succ_of_run {s u t : State} {n : Nat} (hrun : core.run n s = .next u)
    (hstep : step u = .next t) : core.run (n + 1) s = .next t := by
  induction n generalizing s with
  | zero =>
    cases hrun
    exact run_succ_of_step hstep 0
  | succ n ih =>
    cases hs : step s with
    | next v =>
      rw [run_succ_of_step hs] at hrun ⊢
      exact ih hrun
    | fault e => simp [Host.Core.run, show core.step s = .fault e from hs] at hrun
    | refused e => simp [Host.Core.run, show core.step s = .refused e from hs] at hrun

/-- With the host silent the sequencer goes through the listed values of `SEQ`, and the invariants
hold at each. -/
theorem run_from_hinit {s : State} (hs : CoreInv s) (hseq : s.seq = 0x040) (hin : s.inbox = [])
    (n : Nat) : ∃ t, core.run n s = .next t ∧ CoreInv t ∧ t.inbox = [] ∧ t.seq = seqAfter n := by
  induction n with
  | zero => exact ⟨s, rfl, hs, hin, hseq⟩
  | succ n ih =>
    obtain ⟨u, hrun, hu, huin, huseq⟩ := ih
    obtain ⟨t, hstep, htin, htseq⟩ := hu.step_sequencer (.inl huin)
    exact ⟨t, run_succ_of_run hrun hstep, hu.step hstep, by rw [htin, huin, List.tail_nil],
      by rw [htseq, huseq, successor_seqAfter]⟩

/-- No listed value before the last is idle. -/
theorem phField_seqAfter : ∀ n < 131, phField (seqAfter n) ≠ phIdle := by decide

/-- Settles O47: the trace of `SEQ` under the invariants, `BUSY` read from its phase, and `ACCUM` as
the last turn. -/
theorem invocationTakes131Steps : Obligations.InvocationTakes131Steps := by
  unfold Obligations.InvocationTakes131Steps
  intro s hs hseq hin
  have trace := run_from_hinit hs hseq hin
  refine ⟨fun n _ => ?_, fun n hn => ?_, ?_⟩
  · obtain ⟨t, hrun, -, -, htseq⟩ := trace n
    exact ⟨t, hrun, htseq⟩
  · obtain ⟨t, hrun, ht, -, htseq⟩ := trace n
    have hbusy : t.busy = true := ht.busySeq.2 (htseq ▸ phField_seqAfter n hn)
    obtain ⟨-, hvalid, -⟩ := ht.busyFlags hbusy
    exact ⟨t, hrun, hbusy, hvalid⟩
  · obtain ⟨u, hrun, -, huin, huseq⟩ := trace 130
    have hd : decodeMicro u.seq = .ok .accum := by rw [huseq]; rfl
    exact ⟨_, run_succ_of_run hrun (step_of_silent_host huin hd), rfl, rfl, rfl⟩

end Sys2Proof.Machine

/-! # The whole invocation: the function it computes, the turns that compute it, and the host's program -/

namespace Sys2Proof.Machine

/-! ## The invocation as a function (R109, R111, R117) -/

/-- Settles O43, from the last word of the list of words computed so far. -/
theorem scheduleRecurrence : Obligations.ScheduleRecurrence :=
  fun B _ => ⟨schedule_of_lt B, fun h16 _ => schedule_of_ge B h16⟩

/-- A block word is made of four of the first 64 bytes, and every later word of earlier words. -/
theorem schedule_congr {B B' : Nat → Byte} (h : ∀ j < 64, B j = B' j) (t : Nat) :
    schedule B t = schedule B' t := by
  induction t using Nat.strong_induction_on with
  | _ t ih =>
    rcases Nat.lt_or_ge t 16 with ht | ht
    · rw [schedule_of_lt B ht, schedule_of_lt B' ht, h _ (by omega), h _ (by omega),
        h _ (by omega), h _ (by omega)]
    · rw [schedule_of_ge B ht, schedule_of_ge B' ht, ih _ (by omega), ih _ (by omega),
        ih _ (by omega), ih _ (by omega)]

/-- The compression function adds the registers after the 64 rounds into its input (R111). -/
theorem compressCore_eq (Hin : Vector Word 8) (B : Nat → Byte) :
    compressCore Hin B = accumulate Hin (rounds (workOf Hin) (schedule B)) := rfl

/-- Settles O44: the block enters the compression through its schedule only. -/
theorem onlyFirstSixtyFourBytesMatter : Obligations.OnlyFirstSixtyFourBytesMatter := by
  unfold Obligations.OnlyFirstSixtyFourBytesMatter
  intro Hin B B' h
  have hschedule : schedule B = schedule B' := funext (schedule_congr h)
  rw [compressCore_eq, compressCore_eq, hschedule]

/-! ## The result as words and as bytes (R15, R37, R121) -/

/-- A number below `2 ^ w` is not cut when it is read as an index of `w` bits. -/
theorem toNat_ofNat_of_lt {w k : Nat} (h : k < 2 ^ w) : (BitVec.ofNat w k).toNat = k :=
  (BitVec.toNat_ofNat k w).trans (Nat.mod_eq_of_lt h)

/-- Byte `m` of `ser32` (R79). -/
theorem ser32_getElem (x : Word) {m : Nat} (hm : m < 4) : (ser32 x)[m] = serByte x m := by
  interval_cases m <;> rfl

/-- `RDB j` with a valid result answers byte `j` of the 32-byte form (R90). -/
theorem exec_rdb_of_valid {s : State} (j : BitVec 5) (hidle : s.busy = false)
    (hvalid : s.valid = true) :
    exec (.rdb j) s = .next (respond .ok ((byteView s.h j).setWidth 32) s) :=
  unlessBusy_readResult_of_valid _ hidle hvalid

/-- Settles O45: byte `4i + m` of the byte view is byte `m` of word `i`. -/
theorem wordAndByteViewsAgree : Obligations.WordAndByteViewsAgree := by
  unfold Obligations.WordAndByteViewsAgree
  intro s i m hm hidle hvalid
  refine ⟨_, _, rdwReadsWord i s hidle hvalid, exec_rdb_of_valid _ hidle hvalid, ?_⟩
  have hi := i.isLt
  have hindex : (BitVec.ofNat 5 (4 * i.toNat + m)).toNat = 4 * i.toNat + m :=
    toNat_ofNat_of_lt (by omega)
  have hword : (4 * i.toNat + m) / 4 = i.toNat := by omega
  have hbyte : (4 * i.toNat + m) % 4 = m := by omega
  rw [ser32_getElem _ hm, byteView_eq, hindex, hword, hbyte]
  simp [hi]

/-! ## The turns of an invocation, to its end and beyond (R104, R112) -/

/-- Where the invocation on the block `B` that started in `s0` stands once it is over (R101, R112): the
result is there, and the schedule, the block and the length are still those of the invocation. -/
structure Finished (s0 : State) (B : Nat → Byte) (s : State) : Prop where
  hash : s.h = compressCore h0Rom B
  valid : s.valid = true
  busy : s.busy = false
  seq : s.seq = 0
  blk : s.blk = s0.blk
  len : s.len = s0.len
  words : ∀ j : BitVec 6, wAt s.w j = schedule B j.toNat

/-- The last turn finishes the invocation. -/
theorem AfterTurns.finish {s0 s : State} {B : Nat → Byte} (h : AfterTurns s0 B 130 s) :
    ∃ t, exec .accum s = .next t ∧ Finished s0 B t := by
  obtain ⟨t, hexec, hash, valid, busy, seq⟩ := h.accum
  obtain ⟨hblk, hlen, -⟩ := (exec_microEffect rfl hexec).frame
  obtain ⟨-, -, -, hw, -⟩ := microOperationFrame .accum s t rfl hexec
  refine ⟨t, hexec, hash, valid, busy, seq, hblk.trans h.blk, hlen.trans h.len, fun j => ?_⟩
  rw [hw nofun nofun]
  exact h.words j (by omega)

/-- Where the invocation stands after any number `n` of sequencer turns. -/
inductive AtTurn (s0 : State) (B : Nat → Byte) (n : Nat) (s : State) : Prop where
  | running (hn : n ≤ 130) (h : AfterTurns s0 B n s)
  | ended (hn : 131 ≤ n) (h : Finished s0 B s)

namespace AtTurn

variable {s0 s : State} {B : Nat → Byte} {n : Nat}

/-- The host's side does not matter to the invocation. -/
theorem withHost (h : AtTurn s0 B n s) (inbox : List Event) (outbox : List Response) :
    AtTurn s0 B n { s with inbox := inbox, outbox := outbox } := by
  cases h with
  | running hn h => exact .running hn (h.withHost ..)
  | ended hn h => exact .ended hn { h with }

/-- After 131 turns the invocation is over. -/
theorem finished (h : AtTurn s0 B n s) (hn : 131 ≤ n) : Finished s0 B s := by
  cases h with
  | running hn' => omega
  | ended _ h => exact h

/-- An idle core is at the invocation's end. -/
theorem finished_of_idle (h : AtTurn s0 B n s) (hidle : s.busy = false) : Finished s0 B s := by
  cases h with
  | running _ h => simp [h.busy] at hidle
  | ended _ h => exact h

/-- Every turn goes on: to the next micro-operation, to the result, or with `IDLE` nowhere. -/
theorem turn (h : AtTurn s0 B n s) :
    ∃ i t, decodeMicro s.seq = .ok i ∧ exec i s = .next t ∧ AtTurn s0 B (n + 1) t := by
  cases h with
  | running hn h =>
    rcases Nat.lt_or_eq_of_le hn with hlt | rfl
    · obtain ⟨i, t, hd, hexec, ht⟩ := h.turn hlt
      exact ⟨i, t, hd, hexec, .running hlt ht⟩
    · obtain ⟨t, hexec, ht⟩ := h.finish
      exact ⟨.accum, t, by rw [h.seq]; rfl, hexec, .ended le_rfl ht⟩
  | ended hn h => exact ⟨.idle, s, by rw [h.seq]; rfl, rfl, .ended (by omega) h⟩

end AtTurn

/-- With the host silent, `n` steps are `n` turns of the invocation. -/
theorem Started.run {s : State} {B : Nat → Byte} (h : Started s B) (hin : s.inbox = []) (n : Nat) :
    ∃ t, core.run n s = .next t ∧ t.inbox = [] ∧ AtTurn s B n t := by
  induction n with
  | zero => exact ⟨s, rfl, hin, .running (Nat.zero_le _) h.afterTurns⟩
  | succ n ih =>
    obtain ⟨u, hrun, huin, hu⟩ := ih
    obtain ⟨i, t, hd, hexec, ht⟩ := hu.turn
    obtain ⟨-, -, hinbox⟩ := (exec_microEffect (decodeMicro_ok hd).1 hexec).frame
    exact ⟨t, run_succ_of_run hrun ((step_of_silent_host huin hd).trans hexec),
      hinbox.trans huin, ht⟩

/-- The word computed at an index given as a number. -/
theorem AfterTurns.wAt_ofNat {s0 s : State} {B : Nat → Byte} {n k : Nat} (h : AfterTurns s0 B n s)
    (hk : k < 64) (hkn : k + 1 < n) : wAt s.w (BitVec.ofNat 6 k) = schedule B k := by
  have hindex : (BitVec.ofNat 6 k).toNat = k := toNat_ofNat_of_lt hk
  rw [h.words _ (by omega), hindex]

theorem Finished.wAt_ofNat {s0 s : State} {B : Nat → Byte} {k : Nat} (h : Finished s0 B s)
    (hk : k < 64) : wAt s.w (BitVec.ofNat 6 k) = schedule B k := by
  rw [h.words, toNat_ofNat_of_lt hk]

/-- Settles O48: each clause is read from where the invocation stands after `n` turns. -/
theorem sequencerComputesCompressCore : Obligations.SequencerComputesCompressCore := by
  unfold Obligations.SequencerComputesCompressCore
  intro s B hs hin n hn
  obtain ⟨t, hrun, -, ht⟩ := hs.run hin n
  refine ⟨t, hrun, ?_⟩
  cases ht with
  | running hn' h =>
    exact ⟨h.blk, h.len, fun h1 _ => h.hash h1,
      fun h17 k hk => h.wAt_ofNat (by omega) (by omega),
      fun h65 k hk => h.wAt_ofNat hk (by omega),
      fun h66 => h.working 0 h66,
      fun k _ hnk => h.working (k + 1) (by omega),
      by omega⟩
  | ended hn' h =>
    exact ⟨h.blk, h.len, by omega, fun _ k hk => h.wAt_ofNat (by omega),
      fun _ k hk => h.wAt_ofNat hk, by omega, by omega,
      fun _ => ⟨h.hash, h.valid, h.busy, h.seq⟩⟩

/-! ## Answers while an invocation runs (R85, R114) -/

/-- The answer to a command word while an invocation runs, by the order of R85. -/
def busyAnswer (cw : BitVec 16) : Response :=
  match decodeCommand cw with
  | .error _ => ⟨.eIllegal, 0⟩
  | .ok i => if i = .stat then ⟨.ok, 0x140⟩ else ⟨.eBusy, 0⟩

/-- The status word of a running core shows 64 bytes supplied and `BUSY`, and nothing else (R91). -/
theorem CoreInv.status_of_busy {s : State} (hs : CoreInv s) (hbusy : s.busy = true) :
    status s = 0x140 := by
  obtain ⟨hlen, hvalid, herr⟩ := hs.busyFlags hbusy
  have hecause := hs.causeOfNoErr herr
  exact status_eq_ofNat (by simp [hbusy, hvalid, herr, hecause, hlen])

/-- A command word while an invocation runs gets `busyAnswer`, and changes nothing. -/
theorem CoreInv.step_of_busy {s : State} {cw : BitVec 16} {rest : List Event} (hs : CoreInv s)
    (hbusy : s.busy = true) (hin : s.inbox = .command cw :: rest) :
    Machine.step s = .next { s with inbox := rest, outbox := busyAnswer cw :: s.outbox } := by
  cases hd : decodeCommand cw with
  | error r =>
    simp only [busyAnswer, hd]
    exact step_of_illegal_command hin hd
  | ok i =>
    rw [step_of_command hin hd]
    by_cases hstat : i = .stat
    · simp only [busyAnswer, hd, if_pos hstat, ← hs.status_of_busy hbusy]
      rw [hstat]
      rfl
    · simp only [busyAnswer, hd, if_neg hstat]
      exact busyRefusesCommands i _ (isCommand_of_decodeCommand hd) hstat hbusy

/-- Settles O55: the answer is a function of the command word. -/
theorem busyAnswersHideProgress : Obligations.BusyAnswersHideProgress := by
  unfold Obligations.BusyAnswersHideProgress
  intro s1 s2 cw rest1 rest2 hs1 hs2 hbusy1 hbusy2 hin1 hin2
  exact ⟨busyAnswer cw, hs1.step_of_busy hbusy1 hin1, hs2.step_of_busy hbusy2 hin2,
    by rintro rfl; rfl⟩

/-! ## The host's program, word by word (R64, R92) -/

@[simp] theorem andThen_next (s : State) (f : State → Result) : andThen (.next s) f = f s := rfl

/-- Issuing the word of a command performs the command. -/
theorem issue_eq_exec {cw : BitVec 16} {i : Instr} (hd : decodeCommand cw = .ok i) (s : State) :
    issue cw s = exec i s := step_of_command rfl hd

/-- A turn given to the sequencer performs what `SEQ` holds. -/
theorem giveTurn_eq_exec {s : State} {i : Instr} (hd : decodeMicro s.seq = .ok i) :
    giveTurn s = exec i s :=
  step_of_seqTurn (s := { s with inbox := .seqTurn :: s.inbox }) rfl hd

/-! ## Supplying the input (R86, R87) -/

/-- An idle core without a result, to which the host has supplied the bytes `bs` since `CLR`; it holds
the first 64 of them. -/
structure Supplied (bs : List Byte) (s : State) : Prop where
  inv : CoreInv s
  idle : s.busy = false
  noResult : s.valid = false
  len : s.len.toNat = min bs.length 64
  bytes : ∀ j < bs.length, j < 64 → memRead s.blk j = some (byteOf bs j)

theorem byteOf_append_of_lt {bs : List Byte} (b : Byte) {j : Nat} (hj : j < bs.length) :
    byteOf (bs ++ [b]) j = byteOf bs j := List.getD_append _ _ _ _ hj

theorem byteOf_append_length (bs : List Byte) (b : Byte) : byteOf (bs ++ [b]) bs.length = b := by
  simp [byteOf]

/-- `CLR` forgets the bytes supplied before. -/
theorem supplied_clr {s : State} (hs : CoreInv s) (hidle : s.busy = false) :
    ∃ t, issue 0x1000 s = .next t ∧ Supplied [] t := by
  have hexec := clrBeginsInvocation s hidle
  exact ⟨_, (issue_eq_exec (i := .clr) rfl s).trans hexec,
    hs.commandEffect (exec_commandEffect rfl hexec), hidle, rfl, rfl, nofun⟩

/-- While there is room the next byte is stored. -/
theorem Supplied.store {bs : List Byte} {s : State} (h : Supplied bs s) (b : Byte)
    (hroom : bs.length < 64) : ∃ t, exec (.push b) s = .next t ∧ Supplied (bs ++ [b]) t := by
  have hlen : s.len.toNat = bs.length := by rw [h.len]; omega
  have hexec := exec_push_of_lt b h.idle (by omega)
  refine ⟨_, hexec, h.inv.commandEffect (exec_commandEffect rfl hexec), h.idle, h.noResult, ?_,
    fun j hj _ => ?_⟩
  · simp only [respond_len, setLen_len, List.length_append, List.length_singleton]
    bv_omega
  · simp only [respond_blk, setLen_blk, writeBlk_blk, hlen]
    by_cases hlast : j = bs.length
    · rw [hlast, memRead_memWrite_same, byteOf_append_length]
    · have hj : j < bs.length := by
        rw [List.length_append, List.length_singleton] at hj
        omega
      rw [memRead_memWrite_other _ b hlast, byteOf_append_of_lt b hj]
      exact h.bytes j hj (by omega)

/-- Once the block is full the next byte is discarded. -/
theorem Supplied.discard {bs : List Byte} {s : State} (h : Supplied bs s) (b : Byte)
    (hfull : 64 ≤ bs.length) : ∃ t, exec (.push b) s = .next t ∧ Supplied (bs ++ [b]) t := by
  have hexec := exec_push_of_full b h.idle (by rw [h.len]; omega)
  refine ⟨_, hexec, h.inv.commandEffect (exec_commandEffect rfl hexec), h.idle, h.noResult, ?_,
    fun j _ hj => ?_⟩
  · rw [respond_len, h.len, List.length_append]
    omega
  · rw [byteOf_append_of_lt b (by omega)]
    exact h.bytes j (by omega) hj

/-- `PUSH b` supplies one more byte. -/
theorem Supplied.push {bs : List Byte} {s : State} (h : Supplied bs s) (b : Byte) :
    ∃ t, issue (0x20#8 ++ b) s = .next t ∧ Supplied (bs ++ [b]) t := by
  rw [issue_eq_exec (decode_encode (i := .push b) rfl)]
  rcases Nat.lt_or_ge bs.length 64 with hroom | hfull
  · exact h.store b hroom
  · exact h.discard b hfull

theorem Supplied.pushAll {bs : List Byte} {s : State} (h : Supplied bs s) (more : List Byte) :
    ∃ t, issueAll (pushWords more) s = .next t ∧ Supplied (bs ++ more) t := by
  induction more generalizing bs s with
  | nil => exact ⟨s, rfl, by simpa using h⟩
  | cons b more ih =>
    obtain ⟨u, hpush, hu⟩ := h.push b
    obtain ⟨t, hrest, ht⟩ := ih hu
    refine ⟨t, ?_, by simpa using ht⟩
    simpa [pushWords, issueAll, hpush] using hrest

/-- `LOAD` on an idle core supplies exactly its bytes (R64). -/
theorem load_supplies {s : State} (hs : CoreInv s) (hidle : s.busy = false) (bs : List Byte) :
    ∃ t, issueAll (loadWords bs) s = .next t ∧ Supplied bs t := by
  obtain ⟨u, hclr, hu⟩ := supplied_clr hs hidle
  obtain ⟨t, hpush, ht⟩ := hu.pushAll bs
  refine ⟨t, ?_, ht⟩
  rw [loadWords, issueAll, hclr, andThen_next, hpush]

/-! ## The invocation with fewer than 64 bytes (R116) -/

/-- `START` while idle with fewer than 64 bytes supplied raises the error (R88, R125). -/
theorem exec_start_of_short {s : State} (hidle : s.busy = false) (hlen : s.len.toNat < 64) :
    exec .start s = .next (raiseInvalidLength s) :=
  have hshort : tooShort s = true := decide_eq_true hlen
  (unlessBusy_of_idle _ hidle).trans (by rw [if_pos hshort])

/-- Settles O58: `START` finds the bytes of `LOAD` too few, raises the error, and leaves no result. -/
theorem shortInputFails : Obligations.ShortInputFails := by
  unfold Obligations.ShortInputFails
  intro s bs turns hs hidle hshort
  obtain ⟨t, hload, ht⟩ := load_supplies hs hidle bs
  have hlen : t.len.toNat = bs.length := by rw [ht.len]; omega
  have hstart : issue 0x3000 t = .next (raiseInvalidLength t) :=
    (issue_eq_exec (i := .start) rfl t).trans (exec_start_of_short ht.idle (by omega))
  refine ⟨raiseInvalidLength t, ?_, ?_, rfl, ht.idle,
    noDataWithoutResult (raiseInvalidLength t) ht.idle ht.noResult⟩
  · simp only [runPseudo, hload, hstart, andThen_next]
    rfl
  · have hdata : t.len.setWidth 32 = BitVec.ofNat 32 bs.length := by
      rw [← hlen, BitVec.ofNat_toNat]
    rw [← hdata]
    rfl

/-! ## The invocation with 64 or more bytes (R113, R117) -/

/-- `START` on 64 or more bytes begins the invocation on the first 64. -/
theorem Supplied.start {bs : List Byte} {s : State} (h : Supplied bs s) (hlong : 64 ≤ bs.length) :
    ∃ t, issue 0x3000 s = .next t ∧ lastOk t = true ∧ Started t (byteOf bs) := by
  have hexec := startAccepted s h.idle (by rw [h.len]; omega)
  exact ⟨_, (issue_eq_exec (i := .start) rfl s).trans hexec, rfl, rfl, rfl,
    fun j hj => h.bytes j (by omega) hj⟩

/-- Turns given one by one to the sequencer are turns of the invocation. -/
theorem AtTurn.giveTurns {s0 s : State} {B : Nat → Byte} {n : Nat} (h : AtTurn s0 B n s) (k : Nat) :
    ∃ t, giveTurns k s = .next t ∧ AtTurn s0 B (n + k) t := by
  induction k generalizing n s with
  | zero => exact ⟨s, rfl, h⟩
  | succ k ih =>
    obtain ⟨i, u, hd, hexec, hu⟩ := h.turn
    obtain ⟨t, hrest, ht⟩ := ih hu
    refine ⟨t, ?_, by rwa [Nat.add_right_comm] at ht⟩
    simpa [Machine.giveTurns, giveTurn_eq_exec hd, hexec] using hrest

/-- A poll tells the host whether the core is busy, and changes nothing (R91). -/
theorem issue_stat (s : State) :
    issue 0x6000 s = .next (respond .ok (status s) s) ∧
      lastBusy (respond .ok (status s) s) = s.busy :=
  ⟨issue_eq_exec (i := .stat) rfl s, (getLsbD_status s).2.1⟩

/-- The host that polls while the sequencer takes the rest of its 131 turns waits for the result. -/
theorem AtTurn.wait {s0 s : State} {B : Nat → Byte} {n : Nat} {turns : List Nat}
    (h : AtTurn s0 B n s) (hturns : 131 ≤ n + turns.sum) :
    ∃ t, wait turns s = .next t ∧ Finished s0 B t := by
  induction turns generalizing n s with
  | nil => exact ⟨s, rfl, h.finished (by simpa using hturns)⟩
  | cons k turns ih =>
    obtain ⟨u, hgive, hu⟩ := h.giveTurns k
    obtain ⟨hstat, hanswer⟩ := issue_stat u
    have hpolled : AtTurn s0 B (n + k) (respond .ok (status u) u) := hu.withHost ..
    simp only [Machine.wait, hgive, hstat, andThen_next, hanswer]
    cases hbusy : u.busy with
    | true => exact ih hpolled (by simpa [Nat.add_assoc] using hturns)
    | false => exact ⟨_, rfl, hpolled.finished_of_idle hbusy⟩

/-- `COMPRESS` of 64 or more bytes leaves the result of the first 64. -/
theorem compress_finishes {s : State} {bs : List Byte} {turns : List Nat} (hs : CoreInv s)
    (hidle : s.busy = false) (hlong : 64 ≤ bs.length) (hturns : 131 ≤ turns.sum) :
    ∃ s0 t, runPseudo turns (.compress bs) s = .next t ∧ Finished s0 (byteOf bs) t := by
  obtain ⟨u, hload, hu⟩ := load_supplies hs hidle bs
  obtain ⟨s0, hstart, hok, hs0⟩ := hu.start hlong
  have h0 : AtTurn s0 (byteOf bs) 0 s0 := .running (Nat.zero_le _) hs0.afterTurns
  obtain ⟨t, hwait, ht⟩ := h0.wait (by simpa using hturns)
  refine ⟨s0, t, ?_, ht⟩
  simp only [runPseudo, hload, hstart, andThen_next]
  rw [if_pos hok, hwait]

/-! ## Reading the result (R64, R89, R90) -/

/-- Words that only answer, each the same whatever was answered before, give their answers in order. -/
theorem issueAll_of_answers {l : List Nat} {word : Nat → BitVec 16} {answer : Nat → Response}
    {s : State} (h : ∀ k ∈ l, ∀ o, issue (word k) { s with outbox := o } =
      .next { s with outbox := answer k :: o }) (o : List Response) :
    issueAll (l.map word) { s with outbox := o } =
      .next { s with outbox := (l.map answer).reverse ++ o } := by
  induction l generalizing o with
  | nil => rfl
  | cons k l ih =>
    rw [List.map_cons, issueAll, h k List.mem_cons_self, andThen_next,
      ih fun m hm => h m (List.mem_cons_of_mem _ hm)]
    simp

theorem issue_rdw {s : State} (hidle : s.busy = false) (hvalid : s.valid = true) {i : Nat}
    (hi : i < 8) (o : List Response) :
    issue (BitVec.ofNat 16 (0x4000 + i)) { s with outbox := o } =
      .next { s with outbox := ⟨.ok, s.h.toList.getD i 0⟩ :: o } := by
  have hd : ∀ i < 8, decodeCommand (BitVec.ofNat 16 (0x4000 + i)) =
      .ok (.rdw (BitVec.ofNat 3 i)) := by decide
  have hindex : (BitVec.ofNat 3 i).toNat = i := toNat_ofNat_of_lt hi
  rw [issue_eq_exec (hd i hi), rdwReadsWord _ { s with outbox := o } hidle hvalid]
  simp [hindex, hi]

theorem issue_rdb {s : State} (hidle : s.busy = false) (hvalid : s.valid = true) {j : Nat}
    (hj : j < 32) (o : List Response) :
    issue (BitVec.ofNat 16 (0x5000 + j)) { s with outbox := o } =
      .next { s with outbox := ⟨.ok, ((ser32 (s.h.toList.getD (j / 4) 0)).toList.getD (j % 4)
        0).setWidth 32⟩ :: o } := by
  have hd : ∀ j < 32, decodeCommand (BitVec.ofNat 16 (0x5000 + j)) =
      .ok (.rdb (BitVec.ofNat 5 j)) := by decide
  have hindex : (BitVec.ofNat 5 j).toNat = j := toNat_ofNat_of_lt hj
  have hbyte : j % 4 < 4 := Nat.mod_lt _ (by decide)
  have hser : ∀ x : Word, (ser32 x).toList.getD (j % 4) 0 = serByte x (j % 4) := fun x => by
    simp [← ser32_getElem x hbyte, hbyte]
  rw [issue_eq_exec (hd j hj), exec_rdb_of_valid (s := { s with outbox := o }) _ hidle hvalid,
    byteView_eq, hindex, hser]
  rfl

/-- Settles O59: the invocation finishes while the host polls, and the two readings answer with the
words and the bytes of its result. -/
theorem longInputCompresses : Obligations.LongInputCompresses := by
  unfold Obligations.LongInputCompresses
  intro s bs turns hs hidle hlong hturns S
  obtain ⟨s0, t, hrun, ht⟩ := compress_finishes hs hidle hlong hturns
  have hwords := issueAll_of_answers (fun _ hi =>
    issue_rdw ht.busy ht.valid (List.mem_range.1 hi)) t.outbox
  have hbytes := issueAll_of_answers (fun _ hj =>
    issue_rdb ht.busy ht.valid (List.mem_range.1 hj)) t.outbox
  have hS : S = t.h := ht.hash.symm
  exact ⟨t, _, _, hrun, ht.valid, ht.busy, hwords, by rw [hS], hbytes, by rw [hS]⟩

end Sys2Proof.Machine

/-! # The outcome of a command word: the length error, the refusals and their order -/

namespace Sys2Proof.Machine

/-! ## The length error (R125) -/

/-- Settles O18: the data is `LEN` zero-extended, the number of bytes supplied. -/
theorem startRaisesInvalidLength : Obligations.StartRaisesInvalidLength := by
  unfold Obligations.StartRaisesInvalidLength
  intro s hidle hlen
  rw [exec_start_of_short hidle hlen, BitVec.ofNat_toNat]
  rfl

/-! ## The outcome of a command (R85) -/

/-- The three refusals of R127, among the response codes. -/
def RespCode.IsRefusal (c : RespCode) : Prop := c = .eBusy ∨ c = .eNoData ∨ c = .eIllegal

/-- The two commands that read the result (R89, R90). -/
def readsResult : Instr → Bool
  | .rdw _ | .rdb _ => true
  | _ => false

/-- What a legal command reports, by steps 2 to 4 of R85. -/
def commandOutcome (s : State) (i : Instr) : RespCode :=
  if i = .stat then .ok
  else if s.busy = true then .eBusy
  else if i = .start then (if s.len.toNat < 64 then .eInvLen else .ok)
  else if readsResult i = true then (if s.valid = true then .ok else .eNoData)
  else .ok

/-- What a command word reports: step 1 of R85 decodes it before anything else. -/
def wordOutcome (s : State) (cw : BitVec 16) : RespCode :=
  match decodeCommand cw with
  | .error _ => .eIllegal
  | .ok i => commandOutcome s i

/-- Between `s` and `t` the host is given one response, with the code `c`; when `c` is a refusal, nothing
else happens. -/
structure Answered (s : State) (c : RespCode) (t : State) : Prop where
  code : ∃ d, t.outbox = ⟨c, d⟩ :: s.outbox
  refused : c.IsRefusal → t = refuse c s

namespace Answered

variable {s go : State} {c : RespCode}

theorem of_refuse (c : RespCode) (s : State) : Answered s c (refuse c s) :=
  ⟨⟨0, rfl⟩, fun _ => rfl⟩

/-- A command that is performed may write the state. -/
theorem of_ok {d : Word} (h : go.outbox = ⟨.ok, d⟩ :: s.outbox) : Answered s .ok go :=
  ⟨⟨d, h⟩, nofun⟩

/-- The length error is not a refusal: it writes the report (R125). -/
theorem of_raiseInvalidLength (s : State) : Answered s .eInvLen (raiseInvalidLength s) :=
  ⟨⟨_, rfl⟩, nofun⟩

theorem of_readResult (v : Word) (s : State) :
    Answered s (if s.valid = true then .ok else .eNoData) (readResult v s) := by
  split_ifs with hvalid
  · rw [readResult_of_valid v hvalid]
    exact of_ok rfl
  · rw [readResult_of_not_valid v (Bool.not_eq_true _ ▸ hvalid)]
    exact of_refuse ..

/-- On the common path `E_BUSY` comes before the command's own outcome. -/
theorem of_unlessBusy (h : Answered s c go) :
    ∃ t, unlessBusy s go = .next t ∧ Answered s (if s.busy = true then .eBusy else c) t := by
  split_ifs with hbusy
  · exact ⟨_, unlessBusy_of_busy go hbusy, of_refuse ..⟩
  · exact ⟨go, unlessBusy_of_idle go (Bool.not_eq_true _ ▸ hbusy), h⟩

end Answered

/-- Every host command is answered with its outcome. -/
theorem exec_answered {i : Instr} (hi : isCommand i = true) (s : State) :
    ∃ t, exec i s = .next t ∧ Answered s (commandOutcome s i) t := by
  cases i with
  | clr => exact Answered.of_unlessBusy (.of_ok rfl)
  | push b =>
    refine Answered.of_unlessBusy (.of_ok (d := 0) ?_)
    split_ifs <;> rfl
  | start =>
    refine Answered.of_unlessBusy (c := if s.len.toNat < 64 then .eInvLen else .ok) ?_
    simp only [tooShort, decide_eq_true_eq]
    split_ifs
    · exact .of_raiseInvalidLength s
    · exact .of_ok rfl
  | rdw k => exact Answered.of_unlessBusy (.of_readResult ..)
  | rdb j => exact Answered.of_unlessBusy (.of_readResult ..)
  | stat => exact ⟨_, rfl, .of_ok rfl⟩
  | idle | hinit | wload _ | wexp _ | rinit | round _ | accum => cases hi

/-- Every command word, legal or not, is taken from the inbox and answered with its outcome. -/
theorem step_answered {s : State} {cw : BitVec 16} {rest : List Event}
    (hin : s.inbox = .command cw :: rest) :
    ∃ t, step s = .next t ∧ Answered { s with inbox := rest } (wordOutcome s cw) t := by
  unfold wordOutcome
  cases hd : decodeCommand cw with
  | error r => exact ⟨_, step_of_illegal_command hin hd, .of_refuse ..⟩
  | ok i =>
    rw [step_of_command hin hd]
    exact exec_answered (isCommand_of_decodeCommand hd) _

/-- Settles O26: the one response given carries the word's outcome, so that outcome is the refusal. -/
theorem refusalsWriteNothing : Obligations.RefusalsWriteNothing := by
  unfold Obligations.RefusalsWriteNothing
  intro s t cw rest r hin hstep hout hrefusal
  obtain ⟨u, hu, hcode, hrefused⟩ := step_answered hin
  obtain rfl : u = t := Host.Outcome.next.inj (hu.symm.trans hstep)
  obtain ⟨d, hd⟩ := hcode
  obtain rfl : r = ⟨wordOutcome s cw, d⟩ := List.head_eq_of_cons_eq (hout.symm.trans hd)
  obtain rfl := hrefused hrefusal
  obtain rfl : 0 = d := congrArg Response.data (List.head_eq_of_cons_eq hd)
  exact ⟨rfl, rfl⟩

/-! ## The order of the outcomes, read off the word (R130) -/

/-- Two words that decode are the same word exactly when they are the same command. -/
theorem word_eq_iff_command_eq {cw cw' : BitVec 16} {i i' : Instr} (h : decodeCommand cw = .ok i)
    (h' : decodeCommand cw' = .ok i') : cw = cw' ↔ i = i' where
  mp e := Except.ok.inj (h.symm.trans (e ▸ h'))
  mpr e := Encoded.command.inj
    ((encode_of_decodeCommand h).symm.trans (e ▸ encode_of_decodeCommand h'))

/-- The `op` field of a legal word tells the reads of the result from the other commands (R53). -/
theorem opField_eq_read_iff {cw : BitVec 16} {i : Instr} (hd : decodeCommand cw = .ok i) :
    opField cw = 4 ∨ opField cw = 5 ↔ readsResult i = true := by
  have henc := encode_of_decodeCommand hd
  have hi := isCommand_of_decodeCommand hd
  clear hd
  cases i with
  | clr | start | stat => cases henc; decide
  | push b | rdw b | rdb b => cases henc; clear hi; revert b; decide
  | idle | hinit | wload _ | wexp _ | rinit | round _ | accum => cases hi

/-- Settles O25: the outcome by R85, with the decoder's answers read off the word. -/
theorem outcomePriority : Obligations.OutcomePriority := by
  unfold Obligations.OutcomePriority
  intro s cw rest hin
  obtain ⟨t, hstep, ⟨d, hout⟩, -⟩ := step_answered hin
  refine ⟨t, _, hstep, hout, ?_⟩
  have hlegal := decodeCommand_ok_iff_legal cw
  cases hd : decodeCommand cw with
  | error r =>
    have hillegal : legalCommand cw = false := by simpa [hd] using hlegal
    simp [wordOutcome, hd, hillegal]
  | ok i =>
    have hlegal : legalCommand cw = true := hlegal.1 ⟨i, hd⟩
    have hstat : cw = 0x6000 ↔ i = .stat := word_eq_iff_command_eq hd rfl
    have hstart : cw = 0x3000 ↔ i = .start := word_eq_iff_command_eq hd rfl
    simp only [wordOutcome, hd, commandOutcome, hlegal, hstat, hstart, opField_eq_read_iff hd,
      reduceCtorEq, if_false]

end Sys2Proof.Machine

/-! # Reset, and the progress of every invocation (R140, R141, R148) -/

namespace Sys2Proof.Machine

/-- Settles O13: the step that takes a reset event is the reset itself, and its buffer is empty. -/
theorem resetEventAbandons : Obligations.ResetEventAbandons := fun _ _ hin =>
  ⟨_, step_of_reset hin, rfl, rfl, rfl, rfl, rfl, rfl, memRead_nil, rfl, rfl⟩

/-! ## The host's events run out (R148) -/

/-- A step takes at most one event, the next one, and gives the host nothing new to do. -/
theorem step_inbox {s t : State} (h : step s = .next t) : t.inbox = s.inbox.tail := by
  rcases step_next h with ⟨i, u, hturn, hexec⟩ | ⟨cw, rest, r, hin, -, rfl⟩ | ⟨rest, hin, rfl⟩
  · obtain ⟨rfl, ⟨cw, rest, -, hd⟩ | ⟨-, hd⟩⟩ := takeTurn_run hturn
    · obtain ⟨hinbox, -⟩ := (exec_commandEffect (isCommand_of_decodeCommand hd) hexec).answers
      exact hinbox
    · obtain ⟨-, -, hinbox⟩ := (exec_microEffect (decodeMicro_ok hd).1 hexec).frame
      exact hinbox
  · rw [hin]; rfl
  · rw [hin]; rfl

namespace CoreInv

variable {s : State}

/-- Under the invariants a run of any length goes on, keeps them, and takes one event a step. -/
theorem run (hs : CoreInv s) (n : Nat) :
    ∃ t, core.run n s = .next t ∧ CoreInv t ∧ t.inbox = s.inbox.drop n := by
  induction n with
  | zero => exact ⟨s, rfl, hs, rfl⟩
  | succ n ih =>
    obtain ⟨u, hrun, hu, hin⟩ := ih
    obtain ⟨t, hstep⟩ := nothingStopsTheMachine u hu
    exact ⟨t, run_succ_of_run hrun hstep, hu.step hstep, by
      rw [step_inbox hstep, hin, List.tail_drop]⟩

/-- `n` turns after the host's last event the sequencer is at least `n` turns into its trace. -/
theorem run_past_inbox (hs : CoreInv s) (n : Nat) :
    ∃ t, core.run (s.inbox.length + n) s = .next t ∧ CoreInv t ∧ t.inbox = [] ∧
      ∃ m, n ≤ m ∧ t.seq = seqAfter m := by
  induction n with
  | zero =>
    obtain ⟨t, hrun, ht, hin⟩ := hs.run s.inbox.length
    obtain ⟨i, hd⟩ := decodeMicro_of_legalSeq ht.seqLegal
    exact ⟨t, hrun, ht, by rw [hin, List.drop_length], turnOf i, Nat.zero_le _,
      seq_eq_seqAfter hd⟩
  | succ n ih =>
    obtain ⟨u, hrun, hu, hin, m, hm, hseq⟩ := ih
    obtain ⟨t, hstep, htin, htseq⟩ := hu.step_sequencer (.inl hin)
    exact ⟨t, run_succ_of_run hrun hstep, hu.step hstep, by rw [htin, hin, List.tail_nil],
      m + 1, Nat.succ_le_succ hm, by rw [htseq, hseq, successor_seqAfter]⟩

/-- The core is idle when `SEQ` is (R26 (f)). -/
theorem idle_of_seq (hs : CoreInv s) (hseq : s.seq = 0) : s.busy = false :=
  Bool.eq_false_iff.2 fun hbusy => hs.busySeq.1 hbusy (by rw [hseq]; rfl)

end CoreInv

/-- The trace of an invocation is idle after its 131 turns (D14). -/
theorem seqAfter_of_le {m : Nat} (hm : 131 ≤ m) : seqAfter m = 0 := by
  obtain ⟨k, rfl⟩ := Nat.exists_eq_add_of_le' hm
  simp [seqAfter]

/-- Settles O57: the events are taken one a step, and 131 turns later the trace has ended wherever it
stood. -/
theorem invocationCannotHang : Obligations.InvocationCannotHang := by
  unfold Obligations.InvocationCannotHang
  intro s hs
  obtain ⟨t, hrun, ht, hin, m, hm, hseq⟩ := hs.run_past_inbox 131
  have hidle : t.seq = 0 := hseq.trans (seqAfter_of_le hm)
  exact ⟨t, hrun, hin, ht.idle_of_seq hidle, hidle⟩

end Sys2Proof.Machine
